-- ==== Sys2Proof/Word.lean ====
section
/-! DEFINITION. The byte: the one word of this hardware (00_scope.md R6: 8 bits, bit 7 the most significant, value 0..255,
always unsigned; 20_memory.md R51: no wider value is ever stored or loaded). -/

namespace Sys2Proof

/-- A byte (R6): a register, a memory cell, the pc, the flags register, an opcode, an operand. -/
abbrev Byte := BitVec 8

end Sys2Proof
end

