-- ==== Sys2Proof/Machine/Flags.lean ====
section
/-! DEFINITION. The flags register (10_state.md R27 to R29): three mutually exclusive condition bits, written whole by CMP,
bit E read by JEQ and JNE. UNVERIFIED: the bit positions are the spec's decision D5 (notes/assumptions/6.md). -/

namespace Sys2Proof.Machine

/-- `FL_E` (00_scope.md R5): Equal. -/
def flagBitE : Nat := 0

/-- `FL_G` (R5): Greater-Than. -/
def flagBitG : Nat := 1

/-- `FL_L` (R5): Less-Than. -/
def flagBitL : Nat := 2

/-- The flags byte with one condition bit set and the other seven bits 0 (R27). -/
def flagByte (bit : Nat) : Byte := BitVec.twoPow 8 bit

/-- What CMP writes (42_alu.md R133): the bytes compared as unsigned numbers, exactly one bit set. UNVERIFIED: unsigned, and
Less meaning the first operand is the smaller, are the spec's decision D8 (notes/assumptions/16.md). -/
def compareFlags (va vb : Byte) : Byte :=
  if va.toNat = vb.toNat then flagByte flagBitE
  else if va.toNat > vb.toNat then flagByte flagBitG
  else flagByte flagBitL

/-- Bit E, the only bit any instruction reads (R29). -/
def flagE (fl : Byte) : Bool := fl.getLsbD flagBitE

/-- Bit G; no instruction reads it (45_control_transfer.md R166). -/
def flagG (fl : Byte) : Bool := fl.getLsbD flagBitG

/-- Bit L; no instruction reads it (R166). -/
def flagL (fl : Byte) : Bool := fl.getLsbD flagBitL

end Sys2Proof.Machine
end

