-- ==== Sys2Proof/Config.lean ====
section
/-! DEFINITION. The implementation parameters of 00_scope.md R5. The two that change what a byte decodes to are fields of
`Config`, so that both configurations the spec names exist in the model; the rest are constants. The register width, the
register count and the memory size are in the types of Machine/State.lean and the bounds of Machine/Ops.lean; the flag
positions `FL_L`, `FL_G`, `FL_E` are in Machine/Flags.lean; the map `OPCODES` is in Decode.lean. -/

namespace Sys2Proof

/-- What the decoder of one configuration recognises (R5). -/
structure Config where
  /-- `ALU_EXT`: SUB, DIV, AND, OR, XOR and NOT are recognised (decision D1). -/
  aluExt : Bool
  /-- `NOP_ZERO`: the all-zero opcode is a no-op of format F0 (decision D9). -/
  nopZero : Bool
deriving DecidableEq, Repr

namespace Config

/-- `LS8-CORE` (R1, R5): `ALU_EXT` true, `NOP_ZERO` false. The hardware this model is of. UNVERIFIED: the two values are
the spec's decisions D1 and D9 (notes/assumptions/4.md and 8.md). -/
def ls8Core : Config := ⟨true, false⟩

/-- `LS8-CORE-BASE` (R1, R5): exactly the 13 operations of the source document. -/
def ls8CoreBase : Config := ⟨false, false⟩

/-- `SP_RESET` (R5, 10_state.md R21). -/
def spReset : Byte := 0xF4

/-- `PC_RESET` (R5, 10_state.md R25). -/
def pcReset : Byte := 0x00

/-- `REG_RESET`: registers 0 to 6 (R5, 10_state.md R21). -/
def regReset : Byte := 0x00

/-- `FL_RESET` (R5, 10_state.md R28). UNVERIFIED: the spec's decision D6 (notes/assumptions/6.md). -/
def flReset : Byte := 0x00

/-- `MEM_FILL` (R5, 20_memory.md R66): what a cell nothing has written reads as. UNVERIFIED: the spec's decision D7
(notes/assumptions/7.md). -/
def memFill : Byte := 0x00

end Config

end Sys2Proof
end

