-- ==== Sys2Proof/Machine/State.lean ====
section
/-! DEFINITION. The state of the machine (10_state.md), as plain data, and its value right after reset (R36).

The transient latches `ir`, `a`, `b`, `npc`, `mar`, `mdr` are not state: they are dead between steps and are local values of the
step here, as R32 asks. -/

namespace Sys2Proof.Machine

/-- The run state (R30). -/
inductive RunState where
  /-- The core performs steps. -/
  | running
  /-- The core performs none until the next reset (R110). -/
  | halted
deriving DecidableEq, Repr

/-- The kinds of fatal error (60_exceptions.md R190). The value None of the error status `err` is `none` of
`Option ErrKind`. -/
inductive ErrKind where
  /-- A memory address above 255 or a register index above 7 was used (R191). -/
  | outOfRange
  /-- The opcode byte is not in the map (R192). -/
  | unknownInstruction
  /-- PUSH or CALL with `sp = 0` (R193). -/
  | stackUnderflow
  /-- POP or RET with `sp = 255`, or POP r7 of the byte 255 (R194). -/
  | stackOverflow
  /-- An ALU request for an operation the ALU does not have: unreachable, no step produces it (R134, R195). -/
  | unsupportedAluOperation
  /-- DIV with a zero divisor (R196). -/
  | divideByZero
deriving DecidableEq, Repr

/-- What `raise K(info)` carries (00_scope.md R8): the kind and the value `errinfo` records. -/
structure FatalError where
  kind : ErrKind
  info : Nat
deriving DecidableEq, Repr

/-- The `fault` outcome. No step and no instruction raises one: a fatal error of the core is a NEXT state with the core
Halted and its error status set (R202), never a `fault` (notes/assumptions/1.md). -/
inductive Fault where
  /-- Raised by the load port only (`State.load`, Machine/Ports.lean), when the loader breaks its contract and hands over
  more than 256 bytes: the write to address `addr` fails in the loader, before any step, and is no error of the core
  (47_external_interfaces.md R175). Safe: the spec itself says this write fails. -/
  | loaderOutOfRange (addr : Nat)
deriving DecidableEq, Repr

/-- The `refused` outcome. No step and no instruction answers one. -/
inductive Refusal where
  /-- An instruction that has no meaning yet, rejected by name in its arm of `exec`. Safe: it stops where the hardware goes
  on. No arm of this model answers it. -/
  | notModelled (mnemonic : String)
deriving DecidableEq, Repr

/-- Memory (20_memory.md R50) as its cells that differ from `MEM_FILL`: addresses strictly rising, every other address reads
`Config.memFill`. `Memory.wf` (Machine/Ops.lean) states the form. -/
abbrev Memory := List Host.Cell

/-- Everything the spec gives the machine (10_state.md section 1), with the trace of PRN beside it. -/
structure State where
  /-- The eight general registers `x[0]` to `x[7]` (R20); `x[7]` is also the stack pointer (R22). -/
  regs : Vector Byte 8
  /-- The program counter (R25). -/
  pc : Byte
  /-- The flags register, `00000LGE` (R27). -/
  fl : Byte
  /-- The run state (R30). -/
  run : RunState
  /-- The error status (R31). -/
  err : Option ErrKind
  /-- The value recorded with the error (R31, R190). -/
  errinfo : Nat
  /-- The 256-cell memory (R34). -/
  mem : Memory
  /-- The bytes PRN has emitted, in execution order (R35, 47_external_interfaces.md R171): not state of the core, kept
  beside it as R35 says (notes/assumptions/3.md). -/
  output : List Byte
deriving DecidableEq, Repr

/-- The machine right after reset, before any load (R36, 70_reset_and_hazards.md R220 step 1). -/
def State.reset : State where
  regs := #v[Config.regReset, Config.regReset, Config.regReset, Config.regReset, Config.regReset, Config.regReset,
    Config.regReset, Config.spReset]
  pc := Config.pcReset
  fl := Config.flReset
  run := .running
  err := none
  errinfo := 0
  mem := []
  output := []

end Sys2Proof.Machine
end

