-- ==== Sys2Proof/Machine/Ops.lean ====
section
/-! DEFINITION. The named operations over memory, registers and the error status, taking a fatal error, and the commit that
ends a step. There is no return from a fatal error (60_exceptions.md R203), so no operation for one stands here. -/

namespace Sys2Proof.Machine

/-! ### The memory array (20_memory.md R50, R58) -/

/-- The byte in a cell: the first entry for the address, `MEM_FILL` where there is none (R66). -/
def Memory.read : Memory → Nat → Byte
  | [], _ => Config.memFill
  | (b, v) :: rest, a => if b = a then v else Memory.read rest a

/-- The memory without any entry for an address. -/
def Memory.erase (m : Memory) (a : Nat) : Memory := m.filter fun cell => cell.1 != a

/-- An entry put before the first entry with a greater address. -/
def Memory.insert (a : Nat) (v : Byte) : Memory → Memory
  | [] => [(a, v)]
  | (b, w) :: rest => if a < b then (a, v) :: (b, w) :: rest else (b, w) :: Memory.insert a v rest

/-- The memory with `v` in cell `a`. Writing `MEM_FILL` removes the entry, so equal memories stay equal data. -/
def Memory.write (m : Memory) (a : Nat) (v : Byte) : Memory :=
  if v = Config.memFill then Memory.erase m a else Memory.insert a v (Memory.erase m a)

/-- The canonical form: addresses strictly rising and below 256, no entry equal to `MEM_FILL`. -/
abbrev Memory.wf (m : Memory) : Prop :=
  m.Pairwise (fun x y => x.1 < y.1) ∧ ∀ cell ∈ m, cell.1 < 256 ∧ cell.2 ≠ Config.memFill

/-! ### The load-store control (R54, R55): the only path to memory

An address is a natural number, computed without wrapping; no address below 0 is ever formed, because the one subtraction
(`sp - 1`) follows the underflow check (44_stack.md R150; DEDUCED, notes/assumptions/19.md). -/

/-- `MemRead(addr, 1)` (R54). -/
def memRead (m : Memory) (addr : Nat) : Except FatalError Byte :=
  if addr ≤ 255 then .ok (Memory.read m addr) else .error ⟨.outOfRange, addr⟩

/-- `MemWrite(addr, 1, v)` (R54): stores `v mod 256` (R55). -/
def memWrite (m : Memory) (addr v : Nat) : Except FatalError Memory :=
  if addr ≤ 255 then .ok (Memory.write m addr (BitVec.ofNat 8 v)) else .error ⟨.outOfRange, addr⟩

/-! ### Fields of the state -/

/-- General register `x[r]` (10_state.md R20). -/
def State.reg (s : State) (r : Fin 8) : Byte := s.regs.get r

/-- `x[r] <- v`. No register is hardwired (R20). -/
def State.setReg (s : State) (r : Fin 8) (v : Byte) : State := { s with regs := s.regs.set r v }

/-- `pc <- v` (R25). -/
def State.setPc (s : State) (v : Byte) : State := { s with pc := v }

/-- `fl <- v`: the whole byte (R29). -/
def State.setFl (s : State) (v : Byte) : State := { s with fl := v }

/-- A new memory. -/
def State.setMem (s : State) (m : Memory) : State := { s with mem := m }

/-- `Output(v)`: one event appended to the trace (47_external_interfaces.md R171). -/
def State.emit (s : State) (v : Byte) : State := { s with output := s.output ++ [v] }

/-- `halt`: Halted, the error status as it stands (41_system_and_data.md R120). -/
def State.halt (s : State) : State := { s with run := .halted }

/-- TAKING A FATAL ERROR (40_fetch_decode_execute.md R108, 60_exceptions.md R202): the run state becomes Halted, `err` the
kind, `errinfo` the value, and nothing else changes. No state is saved, there is no handler and no vector. UNVERIFIED: that
nothing else changes is the spec's decision D14 (notes/assumptions/10.md). -/
def takeFatal (e : FatalError) (s : State) : State :=
  { s with run := .halted, err := some e.kind, errinfo := e.info }

/-- `MemRead` by the core. -/
def loadByte (addr : Nat) (s : State) : Except FatalError Byte := memRead s.mem addr

/-- `MemWrite` by the core. -/
def storeByte (addr v : Nat) (s : State) : Except FatalError State := do
  let m ← memWrite s.mem addr v
  .ok (s.setMem m)

/-! ### The stack pointer (R22, 44_stack.md R150) -/

/-- `SP_INDEX` (R5): register 7. -/
def spIndex : Fin 8 := 7

/-- `sp`, another name of `x[7]` (R22). -/
def State.sp (s : State) : Byte := s.reg spIndex

/-- The address a push stores to, `sp - 1`; StackUnderflow(0) when `sp = 0` (R150, R193). -/
def pushAddress (s : State) : Except FatalError Nat :=
  if s.sp.toNat = 0 then .error ⟨.stackUnderflow, 0⟩ else .ok (s.sp.toNat - 1)

/-- The address a pop reads, `sp`; StackOverflow(255) when `sp = 255` (R150, R194). -/
def popAddress (s : State) : Except FatalError Nat :=
  if s.sp.toNat = 255 then .error ⟨.stackOverflow, 255⟩ else .ok s.sp.toNat

/-- `sp <- sp + 1`; StackOverflow(255) when the increment would give 256 (R150, R152). -/
def incrementSp (s : State) : Except FatalError State :=
  if s.sp.toNat = 255 then .error ⟨.stackOverflow, 255⟩
  else .ok (s.setReg spIndex (BitVec.ofNat 8 (s.sp.toNat + 1)))

/-! ### The end of a step (40_fetch_decode_execute.md R104, R106, R107) -/

/-- What an operation asks of the pc (R105): the default advance, a target, or `halt`. -/
inductive NextPc where
  | advance
  | target (t : Byte)
  | halt
deriving DecidableEq, Repr

/-- `npc = pc + 1 + n`, an integer that does not wrap (R104). -/
def defaultAdvance (n : Nat) (s : State) : Nat := s.pc.toNat + 1 + n

/-- The commit (R106) on the state that holds the operation's effects. Without a target, an `npc` above 255 is the PC overrun
(R107): the effects stay and OutOfRange(npc) is taken with the pc unchanged. HLT never overruns (R120). UNVERIFIED: the
overrun and HLT at 255 are the spec's decisions D12 and D13 (notes/assumptions/9.md). -/
def commit (npc : Nat) (next : NextPc) (s : State) : State :=
  match next with
  | .halt => if npc ≤ 255 then s.halt.setPc (BitVec.ofNat 8 npc) else s.halt
  | .target t => s.setPc t
  | .advance => if npc ≤ 255 then s.setPc (BitVec.ofNat 8 npc) else takeFatal ⟨.outOfRange, npc⟩ s

/-- One instruction of `n` operand bytes, begun in `s`, whose operation gave `result`: the effects are committed, or, where
it raised, none of them happens and the fatal error is taken in `s` itself (R106, R108). -/
def complete (n : Nat) (s : State) (result : Except FatalError (State × NextPc)) : Host.Outcome State Fault Refusal :=
  match result with
  | .ok (s', next) => .next (commit (defaultAdvance n s) next s')
  | .error e => .next (takeFatal e s)

end Sys2Proof.Machine
end

