-- ==== Sys2Proof/Machine/Operands.lean ====
section
/-! DEFINITION. The two roles of an operand byte (30_encoding.md R83): a register index, read or written with a range check
and never masked (10_state.md R24), or an immediate, which is the byte itself and needs no operation. No instruction takes
a memory address as an operand (20_memory.md R56). -/

namespace Sys2Proof.Machine

/-- The operand byte that names register `r`: the index itself (R83). -/
def regByte (r : Fin 8) : Byte := BitVec.ofNat 8 r.val

/-- `x[i]` read: OutOfRange(i) when `i > 7` (R24, 00_scope.md R8). -/
def readReg (i : Byte) (s : State) : Except FatalError Byte :=
  if h : i.toNat < 8 then .ok (s.reg ⟨i.toNat, h⟩) else .error ⟨.outOfRange, i.toNat⟩

/-- `x[i] <- v`: OutOfRange(i) when `i > 7` (R24, 00_scope.md R8). -/
def writeReg (i v : Byte) (s : State) : Except FatalError State :=
  if h : i.toNat < 8 then .ok (s.setReg ⟨i.toNat, h⟩ v) else .error ⟨.outOfRange, i.toNat⟩

end Sys2Proof.Machine
end

