-- ==== Sys2Proof/Machine/Alu.lean ====
section
/-! DEFINITION. The ALU's base functions and ADD, MUL, CMP (42_alu.md). Operands are computed as natural numbers and the
result is narrowed to its low 8 bits at the end (00_scope.md R7, R130). -/

namespace Sys2Proof.Machine

/-- The frame of an ALU instruction with two register operands and a write-back to `x[a]` (R130): `x[a]` is read, then `x[b]`,
then the function is applied, then its result is written. -/
def aluBinary (f : Byte → Byte → Except FatalError Byte) (a b : Byte) (s : State) :
    Except FatalError (State × NextPc) := do
  let va ← readReg a s
  let vb ← readReg b s
  let v ← f va vb
  let s' ← writeReg a v s
  .ok (s', .advance)

/-- `(A + B) mod 256` (R131). -/
def aluAdd (va vb : Byte) : Byte := BitVec.ofNat 8 (va.toNat + vb.toNat)

/-- `(A * B) mod 256` (R132). -/
def aluMul (va vb : Byte) : Byte := BitVec.ofNat 8 (va.toNat * vb.toNat)

/-- ADD a, b (R131). -/
def execAdd (a b : Byte) (s : State) : Host.Outcome State Fault Refusal :=
  complete 2 s (aluBinary (fun va vb => .ok (aluAdd va vb)) a b s)

/-- MUL a, b (R132). -/
def execMul (a b : Byte) (s : State) : Host.Outcome State Fault Refusal :=
  complete 2 s (aluBinary (fun va vb => .ok (aluMul va vb)) a b s)

/-- CMP a, b (R133): the whole of `fl` is written, no register is. -/
def execCmp (a b : Byte) (s : State) : Host.Outcome State Fault Refusal :=
  complete 2 s do
    let va ← readReg a s
    let vb ← readReg b s
    .ok (s.setFl (compareFlags va vb), .advance)

end Sys2Proof.Machine
end

