-- ==== Sys2Proof/Machine/AluExtension.lean ====
section
/-! DEFINITION. The ALU extension instructions SUB, DIV, AND, OR, XOR, NOT (43_alu_extension.md). UNVERIFIED: the whole set is
the spec's decisions D1, D3 and D4 (notes/assumptions/4.md, 15.md). -/

namespace Sys2Proof.Machine

/-- `(A - B) mod 256`, the mathematical mod (R141). -/
def aluSub (va vb : Byte) : Byte := BitVec.ofInt 8 ((va.toNat : Int) - (vb.toNat : Int))

/-- `A div B`, the floor of the unsigned quotient; DivideByZero(A) when `B = 0` (R142). -/
def aluDiv (va vb : Byte) : Except FatalError Byte :=
  if vb.toNat = 0 then .error ⟨.divideByZero, va.toNat⟩ else .ok (BitVec.ofNat 8 (va.toNat / vb.toNat))

/-- `A & B` (R143). -/
def aluAnd (va vb : Byte) : Byte := va &&& vb

/-- `A | B` (R144). -/
def aluOr (va vb : Byte) : Byte := va ||| vb

/-- `A ^ B` (R145). -/
def aluXor (va vb : Byte) : Byte := va ^^^ vb

/-- `255 - A`, every bit inverted (R146). -/
def aluNot (va : Byte) : Byte := BitVec.ofNat 8 (255 - va.toNat)

/-- SUB a, b (R141). -/
def execSub (a b : Byte) (s : State) : Host.Outcome State Fault Refusal :=
  complete 2 s (aluBinary (fun va vb => .ok (aluSub va vb)) a b s)

/-- DIV a, b (R142). -/
def execDiv (a b : Byte) (s : State) : Host.Outcome State Fault Refusal :=
  complete 2 s (aluBinary aluDiv a b s)

/-- AND a, b (R143). -/
def execAnd (a b : Byte) (s : State) : Host.Outcome State Fault Refusal :=
  complete 2 s (aluBinary (fun va vb => .ok (aluAnd va vb)) a b s)

/-- OR a, b (R144). -/
def execOr (a b : Byte) (s : State) : Host.Outcome State Fault Refusal :=
  complete 2 s (aluBinary (fun va vb => .ok (aluOr va vb)) a b s)

/-- XOR a, b (R145). -/
def execXor (a b : Byte) (s : State) : Host.Outcome State Fault Refusal :=
  complete 2 s (aluBinary (fun va vb => .ok (aluXor va vb)) a b s)

/-- NOT a (R146): the one ALU instruction with a single operand. -/
def execNot (a : Byte) (s : State) : Host.Outcome State Fault Refusal :=
  complete 1 s do
    let va ← readReg a s
    let s' ← writeReg a (aluNot va) s
    .ok (s', .advance)

end Sys2Proof.Machine
end

