-- ==== Sys2Proof/Machine/Control.lean ====
section
/-! DEFINITION. Control transfer: CALL, RET, JMP, JEQ, JNE (45_control_transfer.md). Every target is a byte from a register or
a memory cell, so it is a legal pc, and an instruction with a target has no PC overrun (R160). -/

namespace Sys2Proof.Machine

/-- A conditional jump to `x[a]`: when it is not taken `x[a]` is not read (R164, R165, R109). -/
def jumpIf (taken : Bool) (a : Byte) (s : State) : Except FatalError (State × NextPc) :=
  if taken then do
    let t ← readReg a s
    .ok (s, .target t)
  else .ok (s, .advance)

/-- CALL a (R161): `sp` is decremented, `npc mod 256` is stored there, then `x[a]` is read and becomes the pc. -/
def execCall (a : Byte) (s : State) : Host.Outcome State Fault Refusal :=
  complete 1 s do
    let addr ← pushAddress s
    let s₁ := s.setReg spIndex (BitVec.ofNat 8 addr)
    let s₂ ← storeByte addr (defaultAdvance 1 s) s₁
    let t ← readReg a s₂
    .ok (s₂, .target t)

/-- RET (R162): the pc becomes the byte at `sp`, then `sp` is incremented. -/
def execRet (s : State) : Host.Outcome State Fault Refusal :=
  complete 0 s do
    let addr ← popAddress s
    let t ← loadByte addr s
    let s₁ ← incrementSp s
    .ok (s₁, .target t)

/-- JMP a (R163). -/
def execJmp (a : Byte) (s : State) : Host.Outcome State Fault Refusal := complete 1 s (jumpIf true a s)

/-- JEQ a (R164): taken when bit E is 1. -/
def execJeq (a : Byte) (s : State) : Host.Outcome State Fault Refusal := complete 1 s (jumpIf (flagE s.fl) a s)

/-- JNE a (R165): taken when bit E is 0. -/
def execJne (a : Byte) (s : State) : Host.Outcome State Fault Refusal := complete 1 s (jumpIf (!flagE s.fl) a s)

end Sys2Proof.Machine
end

