-- ==== Sys2Proof/Machine/Stack.lean ====
section
/-! DEFINITION. The stack instructions PUSH and POP (44_stack.md). Their effects take place in the order written, so a register
operand 7 sees the stack pointer as already changed (UNVERIFIED: the spec's decisions D10 and D11, notes/assumptions/12.md). -/

namespace Sys2Proof.Machine

/-- PUSH a (R151): `sp` is decremented, then `x[a]` is read, then it is stored at the new `sp`. -/
def execPush (a : Byte) (s : State) : Host.Outcome State Fault Refusal :=
  complete 1 s do
    let addr ← pushAddress s
    let s₁ := s.setReg spIndex (BitVec.ofNat 8 addr)
    let v ← readReg a s₁
    let s₂ ← storeByte addr v.toNat s₁
    .ok (s₂, .advance)

/-- POP a (R152): the byte at `sp` is read and written to `x[a]`, then `sp` is incremented, with the second bound check that
only POP r7 of the byte 255 can fail. -/
def execPop (a : Byte) (s : State) : Host.Outcome State Fault Refusal :=
  complete 1 s do
    let addr ← popAddress s
    let v ← loadByte addr s
    let s₁ ← writeReg a v s
    let s₂ ← incrementSp s₁
    .ok (s₂, .advance)

end Sys2Proof.Machine
end

