-- ==== Sys2Proof/Machine/System.lean ====
section
/-! DEFINITION. The system and data-move instructions HLT, LDI, PRN (41_system_and_data.md), and the no-op of opcode 0x00
that exists only under `NOP_ZERO` (decision D9). -/

namespace Sys2Proof.Machine

/-- HLT (R120). -/
def execHlt (s : State) : Host.Outcome State Fault Refusal := complete 0 s (.ok (s, .halt))

/-- LDI a, b (R121): `x[a] <- b`. -/
def execLdi (a b : Byte) (s : State) : Host.Outcome State Fault Refusal :=
  complete 2 s do
    let s' ← writeReg a b s
    .ok (s', .advance)

/-- PRN a (R122): `Output(x[a])`; no register, flag or memory change. -/
def execPrn (a : Byte) (s : State) : Host.Outcome State Fault Refusal :=
  complete 1 s do
    let v ← readReg a s
    .ok (s.emit v, .advance)

/-- Opcode 0x00 under `NOP_ZERO` (92_eei_decisions.md D9): format F0, no effect, `pc <- npc`. The configuration this model is
of does not have it (R86); notes/assumptions/8.md. -/
def execNopZero (s : State) : Host.Outcome State Fault Refusal := complete 0 s (.ok (s, .advance))

end Sys2Proof.Machine
end

