-- ==== Sys2Proof/Syntax.lean ====
section
/-! DEFINITION. The instructions: one constructor per row of spec/opcode_table.json (30_encoding.md R84 and R85). An operand
is the raw fetched byte, whole and unchanged (R83): a register operand above 7 is an instruction that decodes and then
raises OutOfRange where it uses the register (10_state.md R24), so its operand is a byte here and not an index below 8. -/

namespace Sys2Proof

/-- The 13 operations of the base set (R84) and the 6 of the ALU extension set (R85), in the table's order. -/
inductive Instr where
  /-- HLT (R120). -/
  | hlt
  /-- LDI: `a` a register index, `b` an immediate (R121). -/
  | ldi (a b : Byte)
  /-- PRN (R122). -/
  | prn (a : Byte)
  /-- ADD (R131). -/
  | add (a b : Byte)
  /-- MUL (R132). -/
  | mul (a b : Byte)
  /-- CMP (R133). -/
  | cmp (a b : Byte)
  /-- SUB, extension (R141). -/
  | sub (a b : Byte)
  /-- DIV, extension (R142). -/
  | div (a b : Byte)
  /-- AND, extension (R143). -/
  | and (a b : Byte)
  /-- OR, extension (R144). -/
  | or (a b : Byte)
  /-- XOR, extension (R145). -/
  | xor (a b : Byte)
  /-- NOT, extension (R146). -/
  | not (a : Byte)
  /-- PUSH (R151). -/
  | push (a : Byte)
  /-- POP (R152). -/
  | pop (a : Byte)
  /-- CALL (R161). -/
  | call (a : Byte)
  /-- RET (R162). -/
  | ret
  /-- JMP (R163). -/
  | jmp (a : Byte)
  /-- JEQ (R164). -/
  | jeq (a : Byte)
  /-- JNE (R165). -/
  | jne (a : Byte)
deriving DecidableEq, Repr

end Sys2Proof
end

