-- ==== Sys2Proof/Decode.lean ====
section
/-! DEFINITION. The decoder and the encoder (30_encoding.md).

The decoder reads one opcode byte, matches all 8 bits of it against the opcode map, and only then asks for as many operand
bytes as bits 7:6 of that byte say (R81, R102, R103). Where those bytes come from is an argument, so that the core's fetch unit
(Machine/Fetch.lean, through the bounds-checked memory read) and `decode` (on a list of bytes) are one decoder. The encoder is
written separately, from the byte column of R84 and R85. -/

namespace Sys2Proof

/-- One row of the opcode map: the byte, whether it needs `ALU_EXT`, and the instruction its operands make. -/
structure OpcodeRow where
  opcode : Byte
  needsExt : Bool
  build : Byte → Byte → Instr

/-- The base set (R84). HLT, LDI, PRN and ADD are the source document's bytes; UNVERIFIED: the other nine are the spec's
decision D2 (notes/assumptions/5.md). -/
def baseOpcodes : List OpcodeRow := [
  ⟨0x01, false, fun _ _ => .hlt⟩,
  ⟨0x82, false, fun a b => .ldi a b⟩,
  ⟨0x47, false, fun a _ => .prn a⟩,
  ⟨0xA0, false, fun a b => .add a b⟩,
  ⟨0xA2, false, fun a b => .mul a b⟩,
  ⟨0xA7, false, fun a b => .cmp a b⟩,
  ⟨0x45, false, fun a _ => .push a⟩,
  ⟨0x46, false, fun a _ => .pop a⟩,
  ⟨0x50, false, fun a _ => .call a⟩,
  ⟨0x11, false, fun _ _ => .ret⟩,
  ⟨0x54, false, fun a _ => .jmp a⟩,
  ⟨0x55, false, fun a _ => .jeq a⟩,
  ⟨0x56, false, fun a _ => .jne a⟩]

/-- The ALU extension set (R85). UNVERIFIED: the spec's decision D3 (notes/assumptions/5.md). -/
def extensionOpcodes : List OpcodeRow := [
  ⟨0xA1, true, fun a b => .sub a b⟩,
  ⟨0xA3, true, fun a b => .div a b⟩,
  ⟨0xA8, true, fun a b => .and a b⟩,
  ⟨0xAA, true, fun a b => .or a b⟩,
  ⟨0xAB, true, fun a b => .xor a b⟩,
  ⟨0x69, true, fun a _ => .not a⟩]

/-- The parameter `OPCODES` of R5. -/
def opcodeTable : List OpcodeRow := baseOpcodes ++ extensionOpcodes

/-- The decoder's verdict on an opcode byte: all 8 bits are matched against the map (R81, R86). -/
def opcodeRow? (c : Config) (ir : Byte) : Option OpcodeRow :=
  opcodeTable.find? fun row => row.opcode == ir && (!row.needsExt || c.aluExt)

/-- The operand count `n = opcode[7:6]`, taken from the fetched byte itself (R81). -/
def operandCount (ir : Byte) : Nat := (ir.extractLsb' 6 2).toNat

/-- What a recognised opcode selects: an instruction of the table, or, under `NOP_ZERO` only, the no-op of opcode 0x00
(D9), which has no row in the table. -/
inductive Fetched where
  | instr (i : Instr)
  | nopZero
deriving DecidableEq, Repr

/-- The decoder, over any source of bytes: `byteAt k` is byte `k` of the instruction or the error of reading it. The opcode
is judged before any operand byte is asked for, then `a`, then `b` (R102, R103, R109 items 1 to 3). -/
def decodeFrom {ε : Type} (c : Config) (unknown : Byte → ε) (byteAt : Nat → Except ε Byte) : Except ε Fetched := do
  let ir ← byteAt 0
  match opcodeRow? c ir with
  | none => if c.nopZero && ir == 0 then .ok .nopZero else .error (unknown ir)
  | some row =>
    let a ← if 1 ≤ operandCount ir then byteAt 1 else .ok 0
    let b ← if 2 ≤ operandCount ir then byteAt 2 else .ok 0
    .ok (.instr (row.build a b))

/-- Why a list of bytes does not begin with an instruction. -/
inductive DecodeError where
  /-- The list is empty. -/
  | noBytes
  /-- The first byte is not in the opcode map (R86). -/
  | unknownInstruction (opcode : Byte)
  /-- The list ends before operand byte number `k` (1 for `a`, 2 for `b`). -/
  | missingOperand (k : Nat)
deriving DecidableEq, Repr

/-- Byte `k` of a list of bytes. -/
def listByte (bytes : List Byte) (k : Nat) : Except DecodeError Byte :=
  match bytes[k]? with
  | some b => .ok b
  | none => .error (if k = 0 then .noBytes else .missingOperand k)

/-- Decode the instruction a list of bytes begins with, and give the rest of the list (R80, R88). -/
def decode (c : Config) (bytes : List Byte) : Except DecodeError (Fetched × List Byte) := do
  let f ← decodeFrom c .unknownInstruction (listByte bytes)
  .ok (f, bytes.drop (1 + operandCount (bytes.headD 0)))

/-- The opcode byte of an instruction (R84, R85). -/
def Instr.opcode : Instr → Byte
  | .hlt => 0x01
  | .ldi _ _ => 0x82
  | .prn _ => 0x47
  | .add _ _ => 0xA0
  | .mul _ _ => 0xA2
  | .cmp _ _ => 0xA7
  | .sub _ _ => 0xA1
  | .div _ _ => 0xA3
  | .and _ _ => 0xA8
  | .or _ _ => 0xAA
  | .xor _ _ => 0xAB
  | .not _ => 0x69
  | .push _ => 0x45
  | .pop _ => 0x46
  | .call _ => 0x50
  | .ret => 0x11
  | .jmp _ => 0x54
  | .jeq _ => 0x55
  | .jne _ => 0x56

/-- The operand bytes of an instruction, `a` before `b` (R80, R82). -/
def Instr.operands : Instr → List Byte
  | .hlt => []
  | .ret => []
  | .prn a => [a]
  | .not a => [a]
  | .push a => [a]
  | .pop a => [a]
  | .call a => [a]
  | .jmp a => [a]
  | .jeq a => [a]
  | .jne a => [a]
  | .ldi a b => [a, b]
  | .add a b => [a, b]
  | .mul a b => [a, b]
  | .cmp a b => [a, b]
  | .sub a b => [a, b]
  | .div a b => [a, b]
  | .and a b => [a, b]
  | .or a b => [a, b]
  | .xor a b => [a, b]

/-- The bytes of an instruction in address order (R80). -/
def encode (i : Instr) : List Byte := i.opcode :: i.operands

/-- The three bytes (the longest instruction) of the number `w` of `nbits` bits, the least significant byte first: byte `k`
of an instruction is bits `8k+7` to `8k` of its number in spec/opcode_table.json. Bits above `nbits` are 0. -/
def wordBytes (nbits w : Nat) : List Byte :=
  [0, 1, 2].map fun k => BitVec.ofNat 8 ((w % 2 ^ nbits) >>> (8 * k))

/-- The instruction the decoder of `LS8-CORE` reads from a number of spec/opcode_table.json. -/
def decodeTableWord (nbits w : Nat) : Option Instr :=
  match decode .ls8Core (wordBytes nbits w) with
  | .ok (.instr i, _) => some i
  | .ok (.nopZero, _) => none
  | .error _ => none

end Sys2Proof
end

