-- ==== Sys2Proof/Machine/Fetch.lean ====
section
/-! DEFINITION. The fetch unit (40_fetch_decode_execute.md R102, R103; 47_external_interfaces.md R170): the decoder fed from
memory, one bounds-checked byte at a time, and the placing of bytes where the next fetch reads. -/

namespace Sys2Proof.Machine

/-- Fetch and decode the instruction at the pc. Byte `k` is `MemRead(pc + k, 1)`, its address computed without wrapping, so an
operand beyond the top of memory raises OutOfRange(256) (R103); an unrecognised opcode raises UnknownInstruction before any
operand is read (R102). -/
def fetch (c : Config) (s : State) : Except FatalError Fetched :=
  decodeFrom c (fun ir => ⟨.unknownInstruction, ir.toNat⟩) fun k => loadByte (s.pc.toNat + k) s

/-- The bytes from an address to the end of memory, at most `n` of them: what `n` fetches from there would read. -/
def bytesFrom (m : Memory) (addr : Nat) : Nat → List Byte
  | 0 => []
  | n + 1 => if addr ≤ 255 then Memory.read m addr :: bytesFrom m (addr + 1) n else []

/-- Bytes put into consecutive cells; those beyond the top of memory are dropped. -/
def placeBytes (m : Memory) (addr : Nat) : List Byte → Memory
  | [] => m
  | b :: rest => placeBytes (if addr ≤ 255 then Memory.write m addr b else m) (addr + 1) rest

end Sys2Proof.Machine
end

