-- ==== Sys2Proof/Machine/Step.lean ====
section
/-! DEFINITION. One step of the core (40_fetch_decode_execute.md R100, R101, R110). -/

namespace Sys2Proof.Machine

/-- One step of a core of configuration `c`: fetch, operand fetch and decode, then execute and commit. A Halted core performs
no step (R110), so its state is answered unchanged (DESIGN CHOICE, safe: notes/assumptions/2.md). -/
def stepWith (c : Config) (s : State) : Host.Outcome State Fault Refusal :=
  match s.run with
  | .halted => .next s
  | .running =>
    match fetch c s with
    | .error e => .next (takeFatal e s)
    | .ok .nopZero => execNopZero s
    | .ok (.instr i) => exec i s

/-- One step of this hardware, `LS8-CORE` (00_scope.md R1, R5). -/
def step (s : State) : Host.Outcome State Fault Refusal := stepWith .ls8Core s

/-- The state with the instruction numbered `w` (of `nbits` bits, every bit above them 0, up to the longest instruction of
three bytes) stored at the pc, in a Running core, so that the next step fetches it. It stands for a load
(notes/assumptions/20.md). -/
def State.withFetchWord (s : State) (nbits w : Nat) : State :=
  { s with run := .running, mem := placeBytes s.mem s.pc.toNat (wordBytes nbits w) }

end Sys2Proof.Machine
end

