-- ==== Sys2Proof/Machine/Ports.lean ====
section
/-! DEFINITION. The ports of the core that no instruction uses (47_external_interfaces.md): reset, load, status and trace. The
output port is the field `output` (R171); the memory port is `memRead` and `memWrite` (R176). -/

namespace Sys2Proof.Machine

/-! ### Reset and load (R174, R175, 70_reset_and_hazards.md R220, R221) -/

/-- The reset input (R174): from any state, Halted included, every piece of state takes its reset value. Nothing of the old
state survives. -/
def State.resetInput (_s : State) : State := State.reset

/-- The loader's writes: byte `i` of the program to cell `addr + i`, each through the bounds-checked write (R175). -/
def loadBytes (m : Memory) (addr : Nat) : List Byte → Except Nat Memory
  | [] => .ok m
  | b :: rest =>
    match memWrite m addr b.toNat with
    | .ok m' => loadBytes m' (addr + 1) rest
    | .error _ => .error addr

/-- The load port (R175): the program's bytes go to the cells from address 0 on, while the core is held in reset. A program
of more than 256 bytes breaks the loader's contract and fails in the loader. -/
def State.load (program : List Byte) (s : State) : Host.Outcome State Fault Refusal :=
  match loadBytes s.mem 0 program with
  | .ok m => .next (s.setMem m)
  | .error addr => .fault (.loaderOutOfRange addr)

/-- The launch state (R220, R221): reset, then load; the one argument is the program. -/
def State.launch (program : List Byte) : Host.Outcome State Fault Refusal := State.reset.load program

/-! ### Status port (R173) -/

/-- What the host can read at any time. -/
structure Status where
  run : RunState
  err : Option ErrKind
  errinfo : Nat
  pc : Byte
  fl : Byte
deriving DecidableEq, Repr

/-- Reading the status changes nothing. -/
def State.status (s : State) : Status := ⟨s.run, s.err, s.errinfo, s.pc, s.fl⟩

/-- The numeric code of an error status (60_exceptions.md R190). UNVERIFIED: the spec's decision D19
(notes/assumptions/17.md). -/
def errCode : Option ErrKind → Nat
  | none => 0
  | some .outOfRange => 1
  | some .unknownInstruction => 2
  | some .stackUnderflow => 3
  | some .stackOverflow => 4
  | some .unsupportedAluOperation => 5
  | some .divideByZero => 6

/-! ### Trace port (R172) -/

/-- The snapshot the observer may take between steps. -/
structure TraceSnapshot where
  pc : Byte
  /-- `mem[pc]`, `mem[pc + 1]`, `mem[pc + 2]`; absent beyond address 255. -/
  bytes : List (Option Byte)
  regs : Vector Byte 8
deriving DecidableEq, Repr

/-- A cell as the observer sees it: absent where there is none, never an error (R172). UNVERIFIED: the spec's decision D23
(notes/assumptions/22.md). -/
def traceByte (m : Memory) (addr : Nat) : Option Byte := if addr ≤ 255 then some (Memory.read m addr) else none

/-- Taking the snapshot: a value read off the state, with no effect on it (R172). -/
def State.snapshot (s : State) : TraceSnapshot :=
  ⟨s.pc, [traceByte s.mem s.pc.toNat, traceByte s.mem (s.pc.toNat + 1), traceByte s.mem (s.pc.toNat + 2)], s.regs⟩

end Sys2Proof.Machine
end

