-- ==== Sys2Proof/Safety.lean ====
section
/-! DEFINITION. What counts as a safe run, and the invariants of the state, in the terms claims use. -/

namespace Sys2Proof.Machine

/-- `k` steps: what the core is asked to do when it is asked to step `k` times. A Halted core stays as it is. It is
`Host.Core.run` of this machine (Laws/Safety.lean), written over `State` itself. -/
def steps : Nat → State → Host.Outcome State Fault Refusal
  | 0, s => .next s
  | k + 1, s =>
    match step s with
    | .next t => steps k t
    | .fault r => .fault r
    | .refused r => .refused r

/-- No fatal error has occurred (10_state.md R31). A safe run is one whose every state is safe; the state after a fatal error
is never a final state of a successful run (40_fetch_decode_execute.md R108). -/
abbrev State.safe (s : State) : Prop := s.err = none

/-- The normal end of a run (47_external_interfaces.md R173): Halted with no error. -/
abbrev State.finished (s : State) : Prop := s.run = .halted ∧ s.err = none

/-- The values `fl` takes over a run (10_state.md R29): 0x00, or exactly one condition bit. -/
abbrev flagsLegal (fl : Byte) : Prop := fl = 0x00 ∨ fl = 0x01 ∨ fl = 0x02 ∨ fl = 0x04

/-- The values `errinfo` takes for each error status (60_exceptions.md R190, R191): an address is always 256 and a register
index 8 to 255; UnsupportedALUOperation is never raised (R195). -/
def errinfoLegal : Option ErrKind → Nat → Bool
  | none, v => v == 0
  | some .outOfRange, v => v == 256 || (8 ≤ v && v ≤ 255)
  | some .unknownInstruction, v => v ≤ 255 && (opcodeRow? .ls8Core (BitVec.ofNat 8 v)).isNone
  | some .stackUnderflow, v => v == 0
  | some .stackOverflow, v => v == 255
  | some .unsupportedAluOperation, _ => false
  | some .divideByZero, v => v ≤ 255

/-- The reachable shapes of (`run`, `err`, `errinfo`) (R31): a Running core has no error, and `errinfo` suits `err`. -/
abbrev State.statusLegal (s : State) : Prop :=
  (s.run = .running → s.err = none) ∧ errinfoLegal s.err s.errinfo = true

/-- The invariant of the machine: memory in its canonical form, the flags register one of its four values, the status one of
its reachable shapes. That every register, cell and the pc hold a byte (R37) is in their types. -/
abbrev State.Inv (s : State) : Prop := Memory.wf s.mem ∧ flagsLegal s.fl ∧ s.statusLegal

/-- Two states that agree on everything the next step may depend on (40_fetch_decode_execute.md R112), and on `run`. -/
abbrev State.agrees (s t : State) : Prop :=
  s.regs = t.regs ∧ s.pc = t.pc ∧ s.fl = t.fl ∧ s.mem = t.mem ∧ s.run = t.run

end Sys2Proof.Machine
end

