-- ==== Sys2Proof/WellFormed.lean ====
section
/-! DEFINITION. Which instructions a configuration has, and which name existing registers.

`Instr.wellFormed c i` is what the decoder and encoder agree on: `i` is an instruction of configuration `c`. Nothing about
operands enters it, because every operand byte is an encoding the decoder accepts (30_encoding.md R83, R86: the verdict is
on the opcode byte alone). `Instr.registersValid` is the separate condition under which no register operand is out of range. -/

namespace Sys2Proof

/-- The six instructions recognised only under `ALU_EXT` (R85). -/
def Instr.isExtension : Instr → Bool
  | .sub _ _ => true
  | .div _ _ => true
  | .and _ _ => true
  | .or _ _ => true
  | .xor _ _ => true
  | .not _ => true
  | .hlt => false
  | .ldi _ _ => false
  | .prn _ => false
  | .add _ _ => false
  | .mul _ _ => false
  | .cmp _ _ => false
  | .push _ => false
  | .pop _ => false
  | .call _ => false
  | .ret => false
  | .jmp _ => false
  | .jeq _ => false
  | .jne _ => false

/-- `i` is an instruction of configuration `c` (R84, R85). -/
def Instr.wellFormed (c : Config) (i : Instr) : Bool := !i.isExtension || c.aluExt

/-- The operand bytes whose role is *register index* (roles of R84 and R85); LDI's `b` is an immediate. -/
def Instr.registerOperands : Instr → List Byte
  | .hlt => []
  | .ret => []
  | .ldi a _ => [a]
  | .prn a => [a]
  | .not a => [a]
  | .push a => [a]
  | .pop a => [a]
  | .call a => [a]
  | .jmp a => [a]
  | .jeq a => [a]
  | .jne a => [a]
  | .add a b => [a, b]
  | .mul a b => [a, b]
  | .cmp a b => [a, b]
  | .sub a b => [a, b]
  | .div a b => [a, b]
  | .and a b => [a, b]
  | .or a b => [a, b]
  | .xor a b => [a, b]

/-- Every register operand is an index 0..7 (10_state.md R24). -/
def Instr.registersValid (i : Instr) : Bool := i.registerOperands.all fun r => r.toNat < 8

end Sys2Proof
end

