-- ==== Sys2Proof/Certificates/Slice0/Obligations.lean ====
section
/-! DEFINITION. The statements for the provers. A docstring says which rule of spec/ a statement formalises and, where a
clause rests on one of the spec's own decisions D1 to D27 (92_eei_decisions.md) or on a choice of this model, which. -/

namespace Sys2Proof.Stated
open Sys2Proof.Machine

/-! ### Words the statements use -/

/-- The byte in cell `addr`. -/
def cell (s : State) (addr : Nat) : Byte := Memory.read s.mem addr

/-- The byte at the pc: the opcode the next step fetches. -/
def opcodeAtPc (s : State) : Byte := cell s s.pc.toNat

/-- The state after a fatal error of kind `k` with value `v`: nothing but the run state and the error status changed
(the spec's decision D14; the values `v` are its decision D19). -/
def failed (s : State) (k : ErrKind) (v : Nat) : State := { s with run := .halted, err := some k, errinfo := v }

/-- The state with the pc moved on by `n`. -/
def pastPc (s : State) (n : Nat) : State := { s with pc := BitVec.ofNat 8 (s.pc.toNat + n) }

/-- The recognised bytes of the base set (30_encoding.md R84). -/
def baseBytes : List Byte := [0x01, 0x82, 0x47, 0xA0, 0xA2, 0xA7, 0x45, 0x46, 0x50, 0x11, 0x54, 0x55, 0x56]

/-- The bytes recognised only under `ALU_EXT` (R85). -/
def extensionBytes : List Byte := [0xA1, 0xA3, 0xA8, 0xAA, 0xAB, 0x69]

/-! ### Shapes shared by the instructions of one format

`Effect … s s'` says that `s'` is `s` with the operation's own effects and the pc still unchanged. -/

/-- Format F0: the byte `op` at the pc of a Running core runs `i`. -/
def FetchedF0 (op : Byte) (i : Instr) : Prop :=
  ∀ s : State, s.run = .running → opcodeAtPc s = op → step s = exec i s

/-- Format F1: the byte `op` runs the instruction with the next byte as operand `a`; at address 255 there is no such byte. -/
def FetchedF1 (op : Byte) (mk : Byte → Instr) : Prop :=
  ∀ s : State, s.run = .running → opcodeAtPc s = op →
    (s.pc.toNat ≤ 254 → step s = exec (mk (cell s (s.pc.toNat + 1))) s) ∧
    (s.pc.toNat = 255 → step s = .next (failed s .outOfRange 256))

/-- Format F2: the byte `op` runs the instruction with the next two bytes as operands `a` and `b`; at address 254 or 255
there are no two such bytes. -/
def FetchedF2 (op : Byte) (mk : Byte → Byte → Instr) : Prop :=
  ∀ s : State, s.run = .running → opcodeAtPc s = op →
    (s.pc.toNat ≤ 253 → step s = exec (mk (cell s (s.pc.toNat + 1)) (cell s (s.pc.toNat + 2))) s) ∧
    (254 ≤ s.pc.toNat → step s = .next (failed s .outOfRange 256))

/-- An instruction of `len` bytes with the effect `Effect` and no target: it completes with that effect and the pc moved past
it, or, where there is no next address, keeps the effect and ends in OutOfRange (the PC overrun,
the spec's decision D12). -/
def CompletesOrOverruns (i : Instr) (len : Nat) (s : State) (Effect : State → Prop) : Prop :=
  (s.pc.toNat + len ≤ 255 → ∃ s', Effect s' ∧ exec i s = .next (pastPc s' len)) ∧
  (255 < s.pc.toNat + len → ∃ s', Effect s' ∧ exec i s = .next (failed s' .outOfRange (s.pc.toNat + len)))

/-- A bad index in operand `a` of a two-operand instruction, or in `b` after a good `a`, is OutOfRange of that index
(the order of the two checks is the spec's decision D15). -/
def ChecksTwoIndices (mk : Byte → Byte → Instr) : Prop :=
  (∀ (a b : Byte) (s : State), 8 ≤ a.toNat → exec (mk a b) s = .next (failed s .outOfRange a.toNat)) ∧
  (∀ (a : Fin 8) (b : Byte) (s : State), 8 ≤ b.toNat →
    exec (mk (regByte a) b) s = .next (failed s .outOfRange b.toNat))

/-- A two-register ALU instruction with write-back: from `x[a]` and `x[b]` to a byte `v` with `Result (x[a]) (x[b]) v`. -/
def TwoRegisterAlu (op : Byte) (mk : Byte → Byte → Instr) (Result : Byte → Byte → Byte → Prop) : Prop :=
  FetchedF2 op mk ∧ ChecksTwoIndices mk ∧
  ∀ (a b : Fin 8) (s : State), CompletesOrOverruns (mk (regByte a) (regByte b)) 3 s fun s' =>
    ∃ v : Byte, Result (s.reg a) (s.reg b) v ∧ s' = { s with regs := s.regs.set a v }

/-- What is left unchanged in the error status and run state unless the core stops: either all three are as before, or the
core is Halted with an error. -/
def StatusKeptOrFailed (s t : State) : Prop :=
  (t.run = s.run ∧ t.err = s.err ∧ t.errinfo = s.errinfo) ∨ (t.run = .halted ∧ t.err.isSome)

/-- Every cell reads as before. -/
def MemoryKept (s t : State) : Prop := ∀ addr : Nat, cell t addr = cell s addr

end Sys2Proof.Stated

section
open Sys2Proof Sys2Proof.Machine Sys2Proof.Stated

/-! ### Decoding and encoding -/

/-- R80, R82 to R85: in every configuration, decoding the bytes of an instruction of that configuration, whatever follows
them, gives that instruction and what follows. (Of the opcode bytes, all but four are the spec's decisions D2, D3.) -/
def Obligations.DecodeInvertsEncode : Prop :=
  ∀ (c : Config) (i : Instr) (rest : List Byte), i.wellFormed c = true →
    decode c (encode i ++ rest) = .ok (.instr i, rest)

/-- R80, R86, R88: in every configuration, whatever bytes the decoder reads as an instruction are that instruction's own
encoding, and the instruction belongs to the configuration. -/
def Obligations.DecodedBytesAreTheEncoding : Prop :=
  ∀ (c : Config) (bytes rest : List Byte) (i : Instr), decode c bytes = .ok (.instr i, rest) →
    bytes = encode i ++ rest ∧ i.wellFormed c = true

/-- R84, R85: words written out bit by bit from the tables decode to their instructions (sanity). -/
def Obligations.SpecWordsDecode : Prop :=
  decode .ls8Core [0b10000010, 0b00000000, 0b00001000] = .ok (.instr (.ldi 0 8), []) ∧
  decode .ls8Core [0b10100000, 0b00000000, 0b00000001] = .ok (.instr (.add 0 1), []) ∧
  decode .ls8Core [0b01101001, 0b00000010] = .ok (.instr (.not 2), []) ∧
  decode .ls8Core [0b01000101, 0b00000111] = .ok (.instr (.push 7), []) ∧
  decode .ls8Core [0b01010101, 0b11111111] = .ok (.instr (.jeq 255), []) ∧
  decode .ls8Core [0b00010001] = .ok (.instr .ret, [])

/-- R192: every byte outside the recognised set, 0x00 and the 64 bytes 0xC0 to 0xFF included, wherever it lies, is
UnknownInstruction with the byte recorded. (The recognised set, that 0x00 is not in it, the recorded value and that nothing else
changes are the spec's decisions D2, D3, D9, D19 and D14.) -/
def Obligations.UnrecognisedOpcodeFails : Prop :=
  ∀ s : State, s.run = .running → opcodeAtPc s ∉ baseBytes → opcodeAtPc s ∉ extensionBytes →
    step s = .next (failed s .unknownInstruction (opcodeAtPc s).toNat)

/-- R85, R86, the spec's decision D1: with `ALU_EXT` false the six extension bytes are UnknownInstruction and the 13 base bytes
do exactly what they do with it true. -/
def Obligations.BaseConfigurationLacksExtension : Prop :=
  ∀ s : State, s.run = .running →
    (opcodeAtPc s ∈ extensionBytes →
      stepWith .ls8CoreBase s = .next (failed s .unknownInstruction (opcodeAtPc s).toNat)) ∧
    (opcodeAtPc s ∈ baseBytes → stepWith .ls8CoreBase s = step s)

/-- The spec's decision D9: in a configuration with `NOP_ZERO` true (not this hardware), 0x00 has no effect and moves the pc
on by one, or overruns at address 255 (its decision D12). -/
def Obligations.NopZeroOnlyAdvances : Prop :=
  ∀ (ext : Bool) (s : State), s.run = .running → opcodeAtPc s = 0x00 →
    (s.pc.toNat ≤ 254 → stepWith ⟨ext, true⟩ s = .next (pastPc s 1)) ∧
    (s.pc.toNat = 255 → stepWith ⟨ext, true⟩ s = .next (failed s .outOfRange 256))

/-! ### The step -/

/-- R101, R105: where the bytes at the pc of a Running core decode to a well-formed instruction, the step is that
instruction's execution; nothing is added around it. -/
def Obligations.StepRunsDecodedInstruction : Prop :=
  ∀ (s : State) (i : Instr) (rest : List Byte), s.run = .running →
    decode .ls8Core (bytesFrom s.mem s.pc.toNat 3) = .ok (.instr i, rest) → i.wellFormed .ls8Core = true →
    step s = exec i s

/-- R103: after a recognised opcode, as many operand bytes as its bits 7:6 say are read from pc+1, pc+2; where they all exist the
instruction they make is executed, and where one lies beyond 255 the step is OutOfRange(256). -/
def Obligations.OperandBytesAreFetched : Prop :=
  ∀ (s : State) (i : Instr), s.run = .running → i.wellFormed .ls8Core = true → opcodeAtPc s = i.opcode →
    (opcodeAtPc s).toNat / 64 = i.operands.length ∧
    ((∀ (k : Nat) (b : Byte), i.operands[k]? = some b → s.pc.toNat + 1 + k ≤ 255 ∧ cell s (s.pc.toNat + 1 + k) = b) →
      step s = exec i s) ∧
    (255 < s.pc.toNat + i.operands.length →
      ∃ t, step s = .next t ∧ t.run = .halted ∧ t.err = some .outOfRange ∧ t.errinfo = 256)

/-- R110: however often it is asked to step, a Halted core stays in the very state it halted in. (That a step it does not
perform is answered by the unchanged state is this model's choice: notes/assumptions/2.md.) -/
def Obligations.HaltedCoreNeverMoves : Prop :=
  ∀ (k : Nat) (s : State), s.run = .halted → steps k s = .next s

/-- R100: after reset the core is Running, and every step of a Running core without an error ends in exactly one of three ways
(the three exclude each other); the second is exactly HLT. -/
def Obligations.StepEndsInOneOfThreeWays : Prop :=
  State.reset.run = .running ∧
  ∀ s : State, s.run = .running → s.err = none → ∃ t, step s = .next t ∧
    ((opcodeAtPc s ≠ 0x01 ∧ t.run = .running ∧ t.err = none) ∨
     (opcodeAtPc s = 0x01 ∧ t.run = .halted ∧ t.err = none) ∨
     (opcodeAtPc s ≠ 0x01 ∧ t.run = .halted ∧ t.err.isSome))

/-- R108, R202 (the spec's decisions D14 and D12): a step that ends in a fatal error leaves the core Halted with the pc at the
failing instruction, and changes nothing else, but for the PC overrun, whose instruction ends at address 255. -/
def Obligations.FatalErrorIsAtomic : Prop :=
  ∀ (s t : State) (k : ErrKind), s.run = .running → s.err = none → step s = .next t → t.err = some k →
    t.run = .halted ∧ t.pc = s.pc ∧
    (¬(k = .outOfRange ∧ t.errinfo = 256 ∧ s.pc.toNat + 1 + operandCount (opcodeAtPc s) = 256) →
      t = failed s k t.errinfo)

/-- R112 with R110: two states that agree on the registers, the pc, the flags, the memory and the run state behave identically
from then on, for any number of steps, whatever their error status and earlier output; and they emit the same bytes. R112 names
the first four; the run state is added because a Halted core performs no step (R110). That such a step is answered by the
unchanged state, and that what PRN emits is kept in the state, are this model's choices (notes/assumptions/2.md and 3.md). -/
def Obligations.AgreeingStatesBehaveAlike : Prop :=
  ∀ (k : Nat) (s t : State), s.agrees t → ∃ (s' t' : State) (emitted : List Byte),
    steps k s = .next s' ∧ steps k t = .next t' ∧ s'.agrees t' ∧
    s'.output = s.output ++ emitted ∧ t'.output = t.output ++ emitted

/-! ### Invariants and reset -/

/-- R29, R31, R190, R195 (the values of `errinfo` and the flag bits are the spec's decisions D19 and D5): every step from a
state that meets the invariant gives a state that meets it. -/
def Obligations.StepKeepsInvariant : Prop :=
  ∀ s t : State, s.Inv → step s = .next t → t.Inv

/-- The state after reset, and after reset and the load of any program that fits, meets the invariant. -/
def Obligations.LaunchMeetsInvariant : Prop :=
  State.reset.Inv ∧ ∀ (program : List Byte) (t : State), State.launch program = .next t → t.Inv

/-- R36, R174 (FL_RESET and MEM_FILL are the spec's decisions D6 and D7): the reset input gives every piece of state its reset
value, from any state. -/
def Obligations.ResetInputRestoresEverything : Prop :=
  ∀ s : State, (∀ r : Fin 8, s.resetInput.reg r = if r = 7 then 0xF4 else 0x00) ∧ s.resetInput.pc = 0x00 ∧
    s.resetInput.fl = 0x00 ∧ s.resetInput.run = .running ∧ s.resetInput.err = none ∧ s.resetInput.errinfo = 0 ∧
    (∀ addr : Nat, cell s.resetInput addr = 0x00) ∧ s.resetInput.output = []

/-- R175, R66, R221 (MEM_FILL is the spec's decision D7): launching a program of at most 256 bytes puts byte `i` in cell `i`,
leaves 0x00 in every other cell and everything else as reset; a longer one fails in the loader at address 256. -/
def Obligations.LaunchLoadsProgram : Prop :=
  ∀ program : List Byte,
    (program.length ≤ 256 → ∃ t, State.launch program = .next t ∧ t = { State.reset with mem := t.mem } ∧
      ∀ addr : Nat, cell t addr = program.getD addr 0x00) ∧
    (256 < program.length → State.launch program = .fault (.loaderOutOfRange 256))

/-! ### Rules of the whole machine -/

/-- R29: no instruction but CMP changes the flags register. (Its opcode byte is the spec's decision D2.) -/
def Obligations.OnlyCmpWritesFlags : Prop :=
  ∀ s t : State, step s = .next t → t.fl ≠ s.fl → opcodeAtPc s = 0xA7

/-- R34: no instruction but PUSH and CALL changes a memory cell. (Their opcode bytes are the spec's decision D2.) -/
def Obligations.OnlyPushAndCallWriteMemory : Prop :=
  ∀ (s t : State) (addr : Nat), step s = .next t → cell t addr ≠ cell s addr →
    opcodeAtPc s = 0x45 ∨ opcodeAtPc s = 0x50

/-- R171: a step appends nothing to the output, or it is PRN and appends exactly the byte of the register it names. -/
def Obligations.OnlyPrnEmits : Prop :=
  ∀ s t : State, step s = .next t → t.output = s.output ∨
    (opcodeAtPc s = 0x47 ∧ ∃ r : Fin 8, cell s (s.pc.toNat + 1) = regByte r ∧ t.output = s.output ++ [s.reg r])

/-- R191 to R197 (kinds and values are the spec's decisions D4, D16, D19): which instruction raises which fatal error, when,
and with which value. -/
def Obligations.FatalErrorCauses : Prop :=
  ∀ (i : Instr) (s t : State) (k : ErrKind), s.err = none → exec i s = .next t → t.err = some k →
    match k with
    | .outOfRange => (∃ r ∈ i.registerOperands, 8 ≤ r.toNat ∧ t.errinfo = r.toNat) ∨
        (i ≠ .hlt ∧ i ≠ .ret ∧ (∀ a, i ≠ .call a ∧ i ≠ .jmp a) ∧ 255 < s.pc.toNat + (encode i).length ∧
          t.errinfo = s.pc.toNat + (encode i).length)
    | .unknownInstruction => False
    | .stackUnderflow => (∃ a, i = .push a ∨ i = .call a) ∧ s.reg 7 = 0 ∧ t.errinfo = 0
    | .stackOverflow => t.errinfo = 255 ∧
        (((∃ a, i = .pop a) ∨ i = .ret) ∧ s.reg 7 = 255 ∨ i = .pop (regByte 7) ∧ cell s (s.reg 7).toNat = 255)
    | .unsupportedAluOperation => False
    | .divideByZero => ∃ a b : Fin 8, i = .div (regByte a) (regByte b) ∧ s.reg b = 0 ∧ t.errinfo = (s.reg a).toNat

/-- R195, R134 (the spec's decision D24): no step of any program raises UnsupportedALUOperation. -/
def Obligations.UnsupportedAluOperationIsUnreachable : Prop :=
  ∀ s t : State, s.err ≠ some .unsupportedAluOperation → step s = .next t → t.err ≠ some .unsupportedAluOperation

/-- R54, R55: the load-store control. In range a write stores the value modulo 256 in its cell and in no other, and a read gives
the cell; out of range both fail with OutOfRange of the address. -/
def Obligations.LoadStoreControlChecksBounds : Prop :=
  ∀ (m : Memory) (addr v : Nat),
    (addr ≤ 255 → memRead m addr = .ok (Memory.read m addr) ∧ ∃ m', memWrite m addr v = .ok m' ∧
      (Memory.read m' addr).toNat = v % 256 ∧ ∀ other : Nat, other ≠ addr → Memory.read m' other = Memory.read m other) ∧
    (255 < addr → memRead m addr = .error ⟨.outOfRange, addr⟩ ∧ memWrite m addr v = .error ⟨.outOfRange, addr⟩)

/-- R50 (the canonical form is this model's representation): two memories in canonical form whose 256 cells read the same are
the same memory. -/
def Obligations.EqualCellsMakeEqualMemory : Prop :=
  ∀ m m' : Memory, Memory.wf m → Memory.wf m' → (∀ addr : Nat, addr ≤ 255 → Memory.read m addr = Memory.read m' addr) →
    m = m'

/-- R172 (the spec's decision D23): the trace snapshot shows the pc, the registers and the three cells from the pc on, and a
cell is absent from it exactly when its address is above 255. -/
def Obligations.SnapshotShowsState : Prop :=
  ∀ s : State, s.snapshot.pc = s.pc ∧ s.snapshot.regs = s.regs ∧ s.snapshot.bytes.length = 3 ∧
    ∀ k : Fin 3, (s.pc.toNat + k.val ≤ 255 → s.snapshot.bytes[k.val]? = some (some (cell s (s.pc.toNat + k.val)))) ∧
      (255 < s.pc.toNat + k.val → s.snapshot.bytes[k.val]? = some none)

/-! ### Each instruction, in the table's order

In each, that a fatal error changes nothing else is the spec's decision D14, its value D19, the order of two checks D15 and the
PC overrun D12 (notes/assumptions/10.md, 17.md, 11.md, 9.md); the docstrings name the other decisions. -/

/-- R120 (the pc after HLT is the spec's decision D13): HLT stops the core with the error status and everything else as
it was; the pc moves past it, but for an HLT at 255, where it stays. It cannot fail. -/
def Obligations.HltHalts : Prop :=
  FetchedF0 0x01 .hlt ∧
  ∀ s : State, exec .hlt s =
    .next { s with run := .halted, pc := if s.pc.toNat = 255 then s.pc else BitVec.ofNat 8 (s.pc.toNat + 1) }

/-- R121: LDI writes the immediate to the register; a bad index is OutOfRange of it. -/
def Obligations.LdiLoadsImmediate : Prop :=
  FetchedF2 0x82 (fun a b => .ldi a b) ∧
  (∀ (a b : Byte) (s : State), 8 ≤ a.toNat → exec (.ldi a b) s = .next (failed s .outOfRange a.toNat)) ∧
  ∀ (a : Fin 8) (b : Byte) (s : State), CompletesOrOverruns (.ldi (regByte a) b) 3 s fun s' =>
    s' = { s with regs := s.regs.set a b }

/-- R122: PRN hands the register's byte to the output, once, and changes nothing else; a bad index is OutOfRange of it with
no output. -/
def Obligations.PrnEmitsRegister : Prop :=
  FetchedF1 0x47 (fun a => .prn a) ∧
  (∀ (a : Byte) (s : State), 8 ≤ a.toNat → exec (.prn a) s = .next (failed s .outOfRange a.toNat)) ∧
  ∀ (a : Fin 8) (s : State), CompletesOrOverruns (.prn (regByte a)) 2 s fun s' =>
    s' = { s with output := s.output ++ [s.reg a] }

/-- R131: ADD is the sum modulo 256. -/
def Obligations.AddIsSumModulo256 : Prop :=
  TwoRegisterAlu 0xA0 (fun a b => .add a b) fun va vb v => v.toNat = (va.toNat + vb.toNat) % 256

/-- R132 (opcode byte: the spec's decision D2): MUL is the low byte of the product. -/
def Obligations.MulIsProductModulo256 : Prop :=
  TwoRegisterAlu 0xA2 (fun a b => .mul a b) fun va vb v => v.toNat = (va.toNat * vb.toNat) % 256

/-- R133 (opcode byte, bit positions, unsigned order: the spec's decisions D2, D5, D8): CMP writes the whole flags byte,
exactly one condition bit set, and nothing else. -/
def Obligations.CmpSetsOneFlag : Prop :=
  FetchedF2 0xA7 (fun a b => .cmp a b) ∧ ChecksTwoIndices (fun a b => .cmp a b) ∧
  ∀ (a b : Fin 8) (s : State), CompletesOrOverruns (.cmp (regByte a) (regByte b)) 3 s fun s' =>
    ∃ f : Byte, s' = { s with fl := f } ∧ (s.reg a = s.reg b → f = 0b00000001) ∧
      ((s.reg a).toNat > (s.reg b).toNat → f = 0b00000010) ∧ ((s.reg a).toNat < (s.reg b).toNat → f = 0b00000100)

/-- R141 (the spec's decision D3): SUB is the difference modulo 256, the result in 0..255 also when it is negative. -/
def Obligations.SubIsDifferenceModulo256 : Prop :=
  TwoRegisterAlu 0xA1 (fun a b => .sub a b) fun va vb v => (v.toNat : Int) = ((va.toNat : Int) - (vb.toNat : Int)) % 256

/-- R142 (the spec's decisions D3 and D4): DIV is the floor of the unsigned quotient; a zero divisor is DivideByZero with the
dividend recorded and nothing written. The quotient `v` is given by `v * d ≤ x[a] < (v + 1) * d`. -/
def Obligations.DivIsFloorOfQuotient : Prop :=
  FetchedF2 0xA3 (fun a b => .div a b) ∧ ChecksTwoIndices (fun a b => .div a b) ∧
  ∀ (a b : Fin 8) (s : State),
    (s.reg b = 0 → exec (.div (regByte a) (regByte b)) s = .next (failed s .divideByZero (s.reg a).toNat)) ∧
    (s.reg b ≠ 0 → CompletesOrOverruns (.div (regByte a) (regByte b)) 3 s fun s' =>
      ∃ v : Byte, v.toNat * (s.reg b).toNat ≤ (s.reg a).toNat ∧ (s.reg a).toNat < (v.toNat + 1) * (s.reg b).toNat ∧
        s' = { s with regs := s.regs.set a v })

/-- R143 (the spec's decision D3): bit `i` of the result is `va[i]` and `vb[i]`. -/
def Obligations.AndIsBitwise : Prop :=
  TwoRegisterAlu 0xA8 (fun a b => .and a b) fun va vb v =>
    ∀ k : Nat, k < 8 → v.getLsbD k = (va.getLsbD k && vb.getLsbD k)

/-- R144 (the spec's decision D3): bit `i` of the result is `va[i]` or `vb[i]`. -/
def Obligations.OrIsBitwise : Prop :=
  TwoRegisterAlu 0xAA (fun a b => .or a b) fun va vb v =>
    ∀ k : Nat, k < 8 → v.getLsbD k = (va.getLsbD k || vb.getLsbD k)

/-- R145 (the spec's decision D3): bit `i` of the result is 1 when `va[i]` and `vb[i]` differ. -/
def Obligations.XorIsBitwise : Prop :=
  TwoRegisterAlu 0xAB (fun a b => .xor a b) fun va vb v =>
    ∀ k : Nat, k < 8 → v.getLsbD k = (va.getLsbD k != vb.getLsbD k)

/-- R146 (the spec's decision D3): NOT is `255 - x[a]`, every bit inverted. -/
def Obligations.NotIsComplement : Prop :=
  FetchedF1 0x69 (fun a => .not a) ∧
  (∀ (a : Byte) (s : State), 8 ≤ a.toNat → exec (.not a) s = .next (failed s .outOfRange a.toNat)) ∧
  ∀ (a : Fin 8) (s : State), CompletesOrOverruns (.not (regByte a)) 2 s fun s' =>
    ∃ v : Byte, v.toNat = 255 - (s.reg a).toNat ∧ (∀ k : Nat, k < 8 → v.getLsbD k = !(s.reg a).getLsbD k) ∧
      s' = { s with regs := s.regs.set a v }

/-- R151, R150 (opcode byte, register 7, the error's name: the spec's decisions D2, D11, D16): PUSH decrements `sp` and stores
the register there (register 7 as already decremented); `sp = 0` is StackUnderflow(0) before the index is looked at. -/
def Obligations.PushStoresBelowStack : Prop :=
  FetchedF1 0x45 (fun a => .push a) ∧
  (∀ (a : Byte) (s : State), s.reg 7 = 0 → exec (.push a) s = .next (failed s .stackUnderflow 0)) ∧
  (∀ (a : Byte) (s : State), s.reg 7 ≠ 0 → 8 ≤ a.toNat → exec (.push a) s = .next (failed s .outOfRange a.toNat)) ∧
  ∀ (a : Fin 8) (s : State), s.reg 7 ≠ 0 → CompletesOrOverruns (.push (regByte a)) 2 s fun s' =>
    ∃ m : Memory, s' = { s with regs := s.regs.set 7 (s.reg 7 - 1), mem := m } ∧
      ∀ addr : Nat, Memory.read m addr =
        if addr = (s.reg 7).toNat - 1 then (if a = 7 then s.reg 7 - 1 else s.reg a) else cell s addr

/-- R152, R150 (opcode byte, register 7, the error's name: the spec's decisions D2, D11, D16): POP reads the byte at `sp` into
the register, then increments `sp` (register 7 holds the byte by then); `sp = 255` is StackOverflow(255) before the index is
looked at, and so is POP r7 of the byte 255. -/
def Obligations.PopLoadsFromStack : Prop :=
  FetchedF1 0x46 (fun a => .pop a) ∧
  (∀ (a : Byte) (s : State), s.reg 7 = 255 → exec (.pop a) s = .next (failed s .stackOverflow 255)) ∧
  (∀ (a : Byte) (s : State), s.reg 7 ≠ 255 → 8 ≤ a.toNat → exec (.pop a) s = .next (failed s .outOfRange a.toNat)) ∧
  (∀ s : State, s.reg 7 ≠ 255 → cell s (s.reg 7).toNat = 255 →
    exec (.pop (regByte 7)) s = .next (failed s .stackOverflow 255)) ∧
  (∀ s : State, s.reg 7 ≠ 255 → cell s (s.reg 7).toNat ≠ 255 → CompletesOrOverruns (.pop (regByte 7)) 2 s fun s' =>
    s' = { s with regs := s.regs.set 7 (cell s (s.reg 7).toNat + 1) }) ∧
  ∀ (a : Fin 8) (s : State), a ≠ 7 → s.reg 7 ≠ 255 → CompletesOrOverruns (.pop (regByte a)) 2 s fun s' =>
    s' = { s with regs := (s.regs.set a (cell s (s.reg 7).toNat)).set 7 (s.reg 7 + 1) }

/-- R161, R150 (opcode byte, register 7, the pushed 0 at address 254, the error's name: the spec's decisions D2, D11, D17,
D16): CALL pushes the address after itself modulo 256 and jumps to the register (register 7 as already decremented). -/
def Obligations.CallPushesReturnAddress : Prop :=
  FetchedF1 0x50 (fun a => .call a) ∧
  (∀ (a : Byte) (s : State), s.reg 7 = 0 → exec (.call a) s = .next (failed s .stackUnderflow 0)) ∧
  (∀ (a : Byte) (s : State), s.reg 7 ≠ 0 → 8 ≤ a.toNat → exec (.call a) s = .next (failed s .outOfRange a.toNat)) ∧
  ∀ (a : Fin 8) (s : State), s.reg 7 ≠ 0 → ∃ (m : Memory) (v : Byte), v.toNat = (s.pc.toNat + 2) % 256 ∧
    (∀ addr : Nat, Memory.read m addr = if addr = (s.reg 7).toNat - 1 then v else cell s addr) ∧
    exec (.call (regByte a)) s = .next { s with
      regs := s.regs.set 7 (s.reg 7 - 1), mem := m, pc := if a = 7 then s.reg 7 - 1 else s.reg a }

/-- R162, R150 (opcode byte, the error's name: the spec's decisions D2, D16): RET jumps to the byte at `sp` and increments
`sp`; `sp = 255` is StackOverflow(255). -/
def Obligations.RetPopsPc : Prop :=
  FetchedF0 0x11 .ret ∧
  (∀ s : State, s.reg 7 = 255 → exec .ret s = .next (failed s .stackOverflow 255)) ∧
  ∀ s : State, s.reg 7 ≠ 255 →
    exec .ret s = .next { s with regs := s.regs.set 7 (s.reg 7 + 1), pc := cell s (s.reg 7).toNat }

/-- R163 (opcode byte: the spec's decision D2): JMP sets the pc to the register and changes nothing else, at any address. -/
def Obligations.JmpJumps : Prop :=
  FetchedF1 0x54 (fun a => .jmp a) ∧
  (∀ (a : Byte) (s : State), 8 ≤ a.toNat → exec (.jmp a) s = .next (failed s .outOfRange a.toNat)) ∧
  ∀ (a : Fin 8) (s : State), exec (.jmp (regByte a)) s = .next { s with pc := s.reg a }

/-- R164 (opcode byte: the spec's decision D2): JEQ jumps when bit E is 1; when it is 0 the register is not read, so any
operand byte will do, and the default advance stands. -/
def Obligations.JeqJumpsWhenEqual : Prop :=
  FetchedF1 0x55 (fun a => .jeq a) ∧
  (∀ (a : Fin 8) (s : State), s.fl.getLsbD 0 = true → exec (.jeq (regByte a)) s = .next { s with pc := s.reg a }) ∧
  (∀ (a : Byte) (s : State), s.fl.getLsbD 0 = true → 8 ≤ a.toNat →
    exec (.jeq a) s = .next (failed s .outOfRange a.toNat)) ∧
  ∀ (a : Byte) (s : State), s.fl.getLsbD 0 = false → CompletesOrOverruns (.jeq a) 2 s fun s' => s' = s

/-- R165 (opcode byte: the spec's decision D2): JNE jumps when bit E is 0; when it is 1 the register is not read, so any
operand byte will do, and the default advance stands. -/
def Obligations.JneJumpsWhenNotEqual : Prop :=
  FetchedF1 0x56 (fun a => .jne a) ∧
  (∀ (a : Fin 8) (s : State), s.fl.getLsbD 0 = false → exec (.jne (regByte a)) s = .next { s with pc := s.reg a }) ∧
  (∀ (a : Byte) (s : State), s.fl.getLsbD 0 = false → 8 ≤ a.toNat →
    exec (.jne a) s = .next (failed s .outOfRange a.toNat)) ∧
  ∀ (a : Byte) (s : State), s.fl.getLsbD 0 = true → CompletesOrOverruns (.jne a) 2 s fun s' => s' = s

/-! ### Frames: what an instruction leaves unchanged, for every operand byte and in every state

They hold of the completed instruction and of the one that ends in a fatal error (the spec's decision D14). -/

/-- R23, R29, R34, R171: the instructions that write one register. LDI, ADD, MUL, SUB, DIV, AND, OR, XOR and NOT change no
register but `x[a]`, no flag, no cell and no output. -/
def Obligations.RegisterWritersFrame : Prop :=
  ∀ (a b : Byte) (i : Instr) (s t : State),
    i ∈ [Instr.ldi a b, .add a b, .mul a b, .sub a b, .div a b, .and a b, .or a b, .xor a b, .not a] →
    exec i s = .next t →
    (∀ r : Fin 8, r.val ≠ a.toNat → t.reg r = s.reg r) ∧ t.fl = s.fl ∧ t.output = s.output ∧ MemoryKept s t ∧
    StatusKeptOrFailed s t

/-- R23, R29, R34, R171: the instructions that write no register. HLT, PRN, CMP, JMP, JEQ and JNE change no register and no
cell; only CMP changes the flags and only PRN the output; only HLT stops the core without an error. -/
def Obligations.NonRegisterWritersFrame : Prop :=
  ∀ (a b : Byte) (i : Instr) (s t : State),
    i ∈ [Instr.hlt, .prn a, .cmp a b, .jmp a, .jeq a, .jne a] → exec i s = .next t →
    (∀ r : Fin 8, t.reg r = s.reg r) ∧ MemoryKept s t ∧ (i ≠ .cmp a b → t.fl = s.fl) ∧
    (i ≠ .prn a → t.output = s.output) ∧ (i ≠ .hlt → StatusKeptOrFailed s t) ∧
    (i = .hlt → t.run = .halted ∧ t.err = s.err ∧ t.errinfo = s.errinfo)

/-- R23, R34: PUSH and CALL change no register but the stack pointer, no flag, no output, and no cell but the one at the
address the push computes; where that computation fails, no cell at all. -/
def Obligations.PushersFrame : Prop :=
  ∀ (a : Byte) (i : Instr) (s t : State), i ∈ [Instr.push a, .call a] → exec i s = .next t →
    (∀ r : Fin 8, r ≠ 7 → t.reg r = s.reg r) ∧ t.fl = s.fl ∧ t.output = s.output ∧ StatusKeptOrFailed s t ∧
    (∀ addr : Nat, pushAddress s = .ok addr → ∀ other : Nat, other ≠ addr → cell t other = cell s other) ∧
    (∀ e : FatalError, pushAddress s = .error e → MemoryKept s t)

/-- R23, R34: POP changes no register but `x[a]` and the stack pointer, RET none but the stack pointer; neither changes a
flag, a cell or the output. -/
def Obligations.PoppersFrame : Prop :=
  ∀ (s t : State),
    (∀ a : Byte, exec (.pop a) s = .next t → ∀ r : Fin 8, r ≠ 7 → r.val ≠ a.toNat → t.reg r = s.reg r) ∧
    (exec .ret s = .next t → ∀ r : Fin 8, r ≠ 7 → t.reg r = s.reg r) ∧
    ∀ (a : Byte) (i : Instr), i ∈ [Instr.pop a, .ret] → exec i s = .next t →
      t.fl = s.fl ∧ t.output = s.output ∧ MemoryKept s t ∧ StatusKeptOrFailed s t

/-! ### Rules about more than one step -/

/-- R122: "`LDI r, v` followed by `PRN r` emits `v` exactly", for every register and value, wherever the two instructions lie
with a next address after them (two that end at 255 overrun: the spec's decision D12). -/
def Obligations.LdiThenPrnEmitsValue : Prop :=
  ∀ (s : State) (r : Fin 8) (v : Byte), s.run = .running → s.pc.toNat + 5 ≤ 255 → cell s s.pc.toNat = 0x82 →
    cell s (s.pc.toNat + 1) = regByte r → cell s (s.pc.toNat + 2) = v → cell s (s.pc.toNat + 3) = 0x47 →
    cell s (s.pc.toNat + 4) = regByte r →
    ∃ t, steps 2 s = .next t ∧ t.output = s.output ++ [v] ∧ t.pc.toNat = s.pc.toNat + 5 ∧
      t.run = .running

/-- R152: "PUSH then POP into a different register round-trips the value unchanged and restores SP to its pre-PUSH value." -/
def Obligations.PushThenPopRoundTrips : Prop :=
  ∀ (s : State) (a b : Fin 8), a ≠ 7 → b ≠ 7 → s.reg 7 ≠ 0 → s.pc.toNat + 4 ≤ 255 →
    ∃ t u : State, exec (.push (regByte a)) s = .next t ∧ exec (.pop (regByte b)) t = .next u ∧
      u.reg b = s.reg a ∧ u.reg 7 = s.reg 7 ∧ u.pc.toNat = s.pc.toNat + 4

/-- R162: CALL then RET resumes at the address after the CALL with the stack pointer as before (after a CALL at 254, at
address 0: the spec's decision D17). -/
def Obligations.CallThenRetResumes : Prop :=
  ∀ (s : State) (a : Fin 8), a ≠ 7 → s.reg 7 ≠ 0 →
    ∃ t u : State, exec (.call (regByte a)) s = .next t ∧ t.pc = s.reg a ∧ exec .ret t = .next u ∧
      u.pc.toNat = (s.pc.toNat + 2) % 256 ∧ ∀ r : Fin 8, u.reg r = s.reg r

/-- R164, R165: CMP then JEQ branches if and only if the compared registers were equal, CMP then JNE if and only if they were
not, whatever the flags were before. -/
def Obligations.CmpDecidesJeqAndJne : Prop :=
  ∀ (s : State) (a b d : Fin 8), s.pc.toNat + 5 ≤ 255 →
    ∃ t u w : State, exec (.cmp (regByte a) (regByte b)) s = .next t ∧
      exec (.jeq (regByte d)) t = .next u ∧ exec (.jne (regByte d)) t = .next w ∧
      u.pc = (if s.reg a = s.reg b then s.reg d else BitVec.ofNat 8 (s.pc.toNat + 5)) ∧
      w.pc = (if s.reg a = s.reg b then BitVec.ofNat 8 (s.pc.toNat + 5) else s.reg d)

/-- R63, for the byte of HLT stored by a PUSH: a PUSH that stores 0x01 right after itself is followed by that HLT, whatever byte
stood there before. (PUSH's byte is the spec's decision D2.) -/
def Obligations.PushedHltRunsNext : Prop :=
  ∀ (s : State) (r : Fin 8), s.run = .running → r ≠ 7 → s.pc.toNat + 2 ≤ 255 → cell s s.pc.toNat = 0x45 →
    cell s (s.pc.toNat + 1) = regByte r → s.reg r = 0x01 → (s.reg 7).toNat = s.pc.toNat + 3 →
    ∃ t, steps 2 s = .next t ∧ t.run = .halted ∧ t.err = s.err ∧
      t.output = s.output ∧ cell t (s.pc.toNat + 2) = 0x01

/-- R226 (opcode byte: the spec's decision D2): a JMP whose target is its own address is repeated for ever: after any
number of steps the state is the same, Running and without a fault. -/
def Obligations.SelfJumpNeverHalts : Prop :=
  ∀ (k : Nat) (s : State) (r : Fin 8), s.run = .running → s.pc.toNat ≤ 254 → cell s s.pc.toNat = 0x54 →
    cell s (s.pc.toNat + 1) = regByte r → s.reg r = s.pc →
    steps k s = .next s

/-- R63: a byte that PUSH or CALL stores where the next instruction begins is the opcode the very next step fetches, whatever byte
stood there before: PUSH storing right after itself, and CALL jumping to the cell it has just stored to. (Their opcode bytes, and
register 7 as operand, are the spec's decisions D2 and D11; the 0 that a CALL at 254 stores is its decision D17.) -/
def Obligations.StoredByteIsNextOpcode : Prop :=
  (∀ (s : State) (r : Fin 8), s.run = .running → opcodeAtPc s = 0x45 → cell s (s.pc.toNat + 1) = regByte r →
    (s.reg 7).toNat = s.pc.toNat + 3 →
    ∃ t, step s = .next t ∧ t.run = .running ∧ t.pc.toNat = s.pc.toNat + 2 ∧
      opcodeAtPc t = if r = 7 then s.reg 7 - 1 else s.reg r) ∧
  (∀ (s : State) (a : Fin 8), s.run = .running → opcodeAtPc s = 0x50 → s.pc.toNat ≤ 254 →
    cell s (s.pc.toNat + 1) = regByte a → s.reg 7 ≠ 0 → (a ≠ 7 → (s.reg a).toNat = (s.reg 7).toNat - 1) →
    ∃ t, step s = .next t ∧ t.run = .running ∧ t.pc.toNat = (s.reg 7).toNat - 1 ∧
      (opcodeAtPc t).toNat = (s.pc.toNat + 2) % 256)

end
end

