-- ==== Sys2Proof/Laws/Decode.lean ====
section
/-! SUPPORT. The opcode map: what a recognised byte tells, and that every instruction's own byte is recognised where the
instruction is well-formed. -/

namespace Sys2Proof

/-- What the decoder's verdict on a byte says: the row is in the map, its byte is the byte, and an extension row needs
`ALU_EXT`. -/
theorem opcodeRow?_some {c : Config} {ir : Byte} {row : OpcodeRow} (h : opcodeRow? c ir = some row) :
    row ∈ opcodeTable ∧ ir = row.opcode ∧ (row.needsExt = true → c.aluExt = true) := by
  have hp := List.find?_some h
  simp only [Bool.and_eq_true, beq_iff_eq, Bool.or_eq_true, Bool.not_eq_true'] at hp
  exact ⟨List.mem_of_find?_eq_some h, hp.1.symm, fun hx => by simpa [hx] using hp.2⟩

/-- The byte of an instruction of configuration `c` is recognised, and its row builds the instruction from its operands. -/
theorem opcodeRow?_opcode {c : Config} {i : Instr} (h : i.wellFormed c = true) :
    ∃ row, opcodeRow? c i.opcode = some row ∧ row.build (i.operands.getD 0 0) (i.operands.getD 1 0) = i := by
  obtain ⟨ext, nop⟩ := c
  cases ext <;> cases i <;> first | exact ⟨_, rfl, rfl⟩ | simp [Instr.wellFormed, Instr.isExtension] at h

/-- Bits 7:6 of an instruction's opcode count its operands (30_encoding.md R87), for all instructions. -/
theorem operandCount_opcode (i : Instr) : operandCount i.opcode = i.operands.length := by
  cases i <;> simp [Instr.opcode, Instr.operands, operandCount]

/-- No instruction has more than two operand bytes (R80). -/
theorem operands_length_le (i : Instr) : i.operands.length ≤ 2 := by
  cases i <;> simp [Instr.operands]

end Sys2Proof
end

