-- ==== Sys2Proof/Laws/Memory.lean ====
section
/-! SUPPORT. The memory: a read after a write gives the value written, a write leaves every other cell alone, and every
operation keeps the canonical form. -/

namespace Sys2Proof.Machine

theorem Memory.read_erase (m : Memory) (a b : Nat) :
    Memory.read (Memory.erase m a) b = if a = b then Config.memFill else Memory.read m b := by
  induction m with
  | nil => simp [Memory.erase, Memory.read]
  | cons cell rest ih =>
    obtain ⟨c, v⟩ := cell
    by_cases hca : c = a
    · simp_all [Memory.erase, Memory.read]
    · simp_all only [Memory.erase, Memory.read, List.filter_cons, bne_iff_ne, ne_eq, not_false_eq_true, if_true]
      by_cases hcb : c = b
      · subst hcb; simp [Ne.symm hca]
      · simp [hcb]

theorem Memory.read_insert (m : Memory) (a b : Nat) (v : Byte) (h : ∀ cell ∈ m, cell.1 ≠ a) :
    Memory.read (Memory.insert a v m) b = if a = b then v else Memory.read m b := by
  induction m with
  | nil => rfl
  | cons cell rest ih =>
    obtain ⟨c, w⟩ := cell
    have hc : c ≠ a := h _ List.mem_cons_self
    have ih := ih fun x hx => h x (List.mem_cons_of_mem _ hx)
    simp only [Memory.insert]
    split
    · rfl
    · simp only [Memory.read, ih]
      by_cases hcb : c = b
      · subst hcb; simp [Ne.symm hc]
      · simp [hcb]

theorem Memory.mem_erase {m : Memory} {a : Nat} {cell : Host.Cell} (h : cell ∈ Memory.erase m a) :
    cell ∈ m ∧ cell.1 ≠ a := by
  simpa [Memory.erase] using h

/-- Read after write, in every memory, canonical or not. -/
theorem Memory.read_write (m : Memory) (a b : Nat) (v : Byte) :
    Memory.read (Memory.write m a v) b = if a = b then v else Memory.read m b := by
  unfold Memory.write
  split
  · subst v; exact Memory.read_erase m a b
  · rw [Memory.read_insert _ _ _ _ fun c hc => (Memory.mem_erase hc).2, Memory.read_erase]
    split <;> rfl

theorem Memory.wf_nil : Memory.wf [] := ⟨List.Pairwise.nil, by simp⟩

theorem Memory.wf_erase {m : Memory} (h : Memory.wf m) (a : Nat) : Memory.wf (Memory.erase m a) :=
  ⟨h.1.sublist List.filter_sublist, fun c hc => h.2 c (Memory.mem_erase hc).1⟩

theorem Memory.mem_insert {m : Memory} {a : Nat} {v : Byte} {cell : Host.Cell} (h : cell ∈ Memory.insert a v m) :
    cell = (a, v) ∨ cell ∈ m := by
  induction m with
  | nil => simpa [Memory.insert] using h
  | cons c rest ih =>
    obtain ⟨b, w⟩ := c
    simp only [Memory.insert] at h
    split at h
    · simpa using h
    · rcases List.mem_cons.1 h with h | h
      · simp [h]
      · rcases ih h with h | h <;> simp [h]

theorem Memory.wf_insert {m : Memory} (h : Memory.wf m) {a : Nat} {v : Byte} (hfree : ∀ cell ∈ m, cell.1 ≠ a)
    (ha : a < 256) (hv : v ≠ Config.memFill) : Memory.wf (Memory.insert a v m) := by
  refine ⟨?_, fun c hc => (Memory.mem_insert hc).elim (fun e => e ▸ ⟨ha, hv⟩) (h.2 c)⟩
  obtain ⟨hsorted, -⟩ := h
  induction m with
  | nil => simp [Memory.insert]
  | cons c rest ih =>
    obtain ⟨b, w⟩ := c
    rw [List.pairwise_cons] at hsorted
    have hba : b ≠ a := hfree _ List.mem_cons_self
    simp only [Memory.insert]
    split
    · rename_i hlt
      refine List.pairwise_cons.2 ⟨fun x hx => ?_, List.pairwise_cons.2 hsorted⟩
      rcases List.mem_cons.1 hx with rfl | hx
      · exact hlt
      · exact Nat.lt_trans hlt (hsorted.1 x hx)
    · rename_i hge
      refine List.pairwise_cons.2 ⟨fun x hx => ?_, ih (fun x hx => hfree x (List.mem_cons_of_mem _ hx)) hsorted.2⟩
      rcases Memory.mem_insert hx with rfl | hx
      · simp only; omega
      · exact hsorted.1 x hx

/-- A write below 256 keeps the canonical form. -/
theorem Memory.wf_write {m : Memory} (h : Memory.wf m) {a : Nat} (ha : a < 256) (v : Byte) :
    Memory.wf (Memory.write m a v) := by
  unfold Memory.write
  split
  · exact Memory.wf_erase h a
  · exact Memory.wf_insert (Memory.wf_erase h a) (fun c hc => (Memory.mem_erase hc).2) ha ‹_›

/-- Placing bytes keeps the canonical form. -/
theorem placeBytes_wf {m : Memory} (h : Memory.wf m) (addr : Nat) (bytes : List Byte) :
    Memory.wf (placeBytes m addr bytes) := by
  induction bytes generalizing m addr with
  | nil => exact h
  | cons b rest ih =>
    refine ih ?_ _
    split
    · exact Memory.wf_write h (by omega) b
    · exact h

/-- Everything the bounds-checked read can do (20_memory.md R54). -/
theorem memRead_cases (m : Memory) (addr : Nat) :
    (addr ≤ 255 ∧ memRead m addr = .ok (Memory.read m addr)) ∨
    (255 < addr ∧ memRead m addr = .error ⟨.outOfRange, addr⟩) := by
  unfold memRead
  split <;> simp <;> omega

/-- Everything the bounds-checked write can do (R54, R55). -/
theorem memWrite_cases (m : Memory) (addr v : Nat) :
    (addr ≤ 255 ∧ memWrite m addr v = .ok (Memory.write m addr (BitVec.ofNat 8 v))) ∨
    (255 < addr ∧ memWrite m addr v = .error ⟨.outOfRange, addr⟩) := by
  unfold memWrite
  split <;> simp <;> omega

end Sys2Proof.Machine
end

