-- ==== Sys2Proof/Laws/State.lean ====
section
/-! SUPPORT. What each update of the state does to each field: one lemma per field per update, so that no proof unfolds a
record update; and the same for reading a general register after an update. -/

namespace Sys2Proof.Machine

@[simp] theorem State.setReg_regs (s : State) (r : Fin 8) (v : Byte) : (s.setReg r v).regs = s.regs.set r v := rfl
@[simp] theorem State.setReg_pc (s : State) (r : Fin 8) (v : Byte) : (s.setReg r v).pc = s.pc := rfl
@[simp] theorem State.setReg_fl (s : State) (r : Fin 8) (v : Byte) : (s.setReg r v).fl = s.fl := rfl
@[simp] theorem State.setReg_run (s : State) (r : Fin 8) (v : Byte) : (s.setReg r v).run = s.run := rfl
@[simp] theorem State.setReg_err (s : State) (r : Fin 8) (v : Byte) : (s.setReg r v).err = s.err := rfl
@[simp] theorem State.setReg_errinfo (s : State) (r : Fin 8) (v : Byte) : (s.setReg r v).errinfo = s.errinfo := rfl
@[simp] theorem State.setReg_mem (s : State) (r : Fin 8) (v : Byte) : (s.setReg r v).mem = s.mem := rfl
@[simp] theorem State.setReg_output (s : State) (r : Fin 8) (v : Byte) : (s.setReg r v).output = s.output := rfl

@[simp] theorem State.setPc_regs (s : State) (v : Byte) : (s.setPc v).regs = s.regs := rfl
@[simp] theorem State.setPc_pc (s : State) (v : Byte) : (s.setPc v).pc = v := rfl
@[simp] theorem State.setPc_fl (s : State) (v : Byte) : (s.setPc v).fl = s.fl := rfl
@[simp] theorem State.setPc_run (s : State) (v : Byte) : (s.setPc v).run = s.run := rfl
@[simp] theorem State.setPc_err (s : State) (v : Byte) : (s.setPc v).err = s.err := rfl
@[simp] theorem State.setPc_errinfo (s : State) (v : Byte) : (s.setPc v).errinfo = s.errinfo := rfl
@[simp] theorem State.setPc_mem (s : State) (v : Byte) : (s.setPc v).mem = s.mem := rfl
@[simp] theorem State.setPc_output (s : State) (v : Byte) : (s.setPc v).output = s.output := rfl

@[simp] theorem State.setFl_regs (s : State) (v : Byte) : (s.setFl v).regs = s.regs := rfl
@[simp] theorem State.setFl_pc (s : State) (v : Byte) : (s.setFl v).pc = s.pc := rfl
@[simp] theorem State.setFl_fl (s : State) (v : Byte) : (s.setFl v).fl = v := rfl
@[simp] theorem State.setFl_run (s : State) (v : Byte) : (s.setFl v).run = s.run := rfl
@[simp] theorem State.setFl_err (s : State) (v : Byte) : (s.setFl v).err = s.err := rfl
@[simp] theorem State.setFl_errinfo (s : State) (v : Byte) : (s.setFl v).errinfo = s.errinfo := rfl
@[simp] theorem State.setFl_mem (s : State) (v : Byte) : (s.setFl v).mem = s.mem := rfl
@[simp] theorem State.setFl_output (s : State) (v : Byte) : (s.setFl v).output = s.output := rfl

@[simp] theorem State.setMem_regs (s : State) (m : Memory) : (s.setMem m).regs = s.regs := rfl
@[simp] theorem State.setMem_pc (s : State) (m : Memory) : (s.setMem m).pc = s.pc := rfl
@[simp] theorem State.setMem_fl (s : State) (m : Memory) : (s.setMem m).fl = s.fl := rfl
@[simp] theorem State.setMem_run (s : State) (m : Memory) : (s.setMem m).run = s.run := rfl
@[simp] theorem State.setMem_err (s : State) (m : Memory) : (s.setMem m).err = s.err := rfl
@[simp] theorem State.setMem_errinfo (s : State) (m : Memory) : (s.setMem m).errinfo = s.errinfo := rfl
@[simp] theorem State.setMem_mem (s : State) (m : Memory) : (s.setMem m).mem = m := rfl
@[simp] theorem State.setMem_output (s : State) (m : Memory) : (s.setMem m).output = s.output := rfl

@[simp] theorem State.emit_regs (s : State) (v : Byte) : (s.emit v).regs = s.regs := rfl
@[simp] theorem State.emit_pc (s : State) (v : Byte) : (s.emit v).pc = s.pc := rfl
@[simp] theorem State.emit_fl (s : State) (v : Byte) : (s.emit v).fl = s.fl := rfl
@[simp] theorem State.emit_run (s : State) (v : Byte) : (s.emit v).run = s.run := rfl
@[simp] theorem State.emit_err (s : State) (v : Byte) : (s.emit v).err = s.err := rfl
@[simp] theorem State.emit_errinfo (s : State) (v : Byte) : (s.emit v).errinfo = s.errinfo := rfl
@[simp] theorem State.emit_mem (s : State) (v : Byte) : (s.emit v).mem = s.mem := rfl
@[simp] theorem State.emit_output (s : State) (v : Byte) : (s.emit v).output = s.output ++ [v] := rfl

@[simp] theorem State.halt_regs (s : State) : (s.halt).regs = s.regs := rfl
@[simp] theorem State.halt_pc (s : State) : (s.halt).pc = s.pc := rfl
@[simp] theorem State.halt_fl (s : State) : (s.halt).fl = s.fl := rfl
@[simp] theorem State.halt_run (s : State) : (s.halt).run = .halted := rfl
@[simp] theorem State.halt_err (s : State) : (s.halt).err = s.err := rfl
@[simp] theorem State.halt_errinfo (s : State) : (s.halt).errinfo = s.errinfo := rfl
@[simp] theorem State.halt_mem (s : State) : (s.halt).mem = s.mem := rfl
@[simp] theorem State.halt_output (s : State) : (s.halt).output = s.output := rfl

@[simp] theorem takeFatal_regs (e : FatalError) (s : State) : (takeFatal e s).regs = s.regs := rfl
@[simp] theorem takeFatal_pc (e : FatalError) (s : State) : (takeFatal e s).pc = s.pc := rfl
@[simp] theorem takeFatal_fl (e : FatalError) (s : State) : (takeFatal e s).fl = s.fl := rfl
@[simp] theorem takeFatal_run (e : FatalError) (s : State) : (takeFatal e s).run = .halted := rfl
@[simp] theorem takeFatal_err (e : FatalError) (s : State) : (takeFatal e s).err = some e.kind := rfl
@[simp] theorem takeFatal_errinfo (e : FatalError) (s : State) : (takeFatal e s).errinfo = e.info := rfl
@[simp] theorem takeFatal_mem (e : FatalError) (s : State) : (takeFatal e s).mem = s.mem := rfl
@[simp] theorem takeFatal_output (e : FatalError) (s : State) : (takeFatal e s).output = s.output := rfl

@[simp] theorem State.reg_setReg (s : State) (r q : Fin 8) (v : Byte) :
    (s.setReg r v).reg q = if r = q then v else s.reg q := by
  simp only [State.reg, State.setReg, Vector.get_eq_getElem, Vector.getElem_set, Fin.ext_iff]

@[simp] theorem State.reg_setPc (s : State) (v : Byte) (q : Fin 8) : (s.setPc v).reg q = s.reg q := rfl
@[simp] theorem State.reg_setFl (s : State) (v : Byte) (q : Fin 8) : (s.setFl v).reg q = s.reg q := rfl
@[simp] theorem State.reg_setMem (s : State) (m : Memory) (q : Fin 8) : (s.setMem m).reg q = s.reg q := rfl
@[simp] theorem State.reg_emit (s : State) (v : Byte) (q : Fin 8) : (s.emit v).reg q = s.reg q := rfl
@[simp] theorem State.reg_halt (s : State) (q : Fin 8) : (s.halt).reg q = s.reg q := rfl
@[simp] theorem reg_takeFatal (e : FatalError) (s : State) (q : Fin 8) : (takeFatal e s).reg q = s.reg q := rfl

/-- Writing back what a register holds changes nothing. -/
theorem State.setReg_reg (s : State) (r : Fin 8) : s.setReg r (s.reg r) = s := by
  simp [State.setReg, State.reg, Vector.get_eq_getElem]

/-- The stack pointer is register 7 (10_state.md R22). -/
theorem State.sp_eq (s : State) : s.sp = s.reg spIndex := rfl

end Sys2Proof.Machine
end

