-- ==== Sys2Proof/Laws/Ops.lean ====
section
/-! SUPPORT. For each shared operation, what it can do: cite these instead of unfolding the operation. -/

namespace Sys2Proof.Machine

/-! ### Operands -/

theorem regByte_toNat (r : Fin 8) : (regByte r).toNat = r.val := by
  simp only [regByte, BitVec.toNat_ofNat]; omega

/-- A valid operand byte is the byte of some register. -/
theorem exists_regByte {a : Byte} (h : a.toNat < 8) : ∃ r : Fin 8, a = regByte r :=
  ⟨⟨a.toNat, h⟩, by simp [regByte]⟩

@[simp] theorem readReg_regByte (r : Fin 8) (s : State) : readReg (regByte r) s = .ok (s.reg r) := by
  simp [readReg, regByte_toNat]

theorem readReg_bad {a : Byte} (h : 8 ≤ a.toNat) (s : State) : readReg a s = .error ⟨.outOfRange, a.toNat⟩ := by
  simp [readReg, Nat.not_lt.2 h]

@[simp] theorem writeReg_regByte (r : Fin 8) (v : Byte) (s : State) :
    writeReg (regByte r) v s = .ok (s.setReg r v) := by
  simp [writeReg, regByte_toNat]

theorem writeReg_bad {a : Byte} (h : 8 ≤ a.toNat) (v : Byte) (s : State) :
    writeReg a v s = .error ⟨.outOfRange, a.toNat⟩ := by
  simp [writeReg, Nat.not_lt.2 h]

/-- Everything a register read can do (10_state.md R24). -/
theorem readReg_cases (a : Byte) (s : State) :
    (∃ r, a = regByte r ∧ readReg a s = .ok (s.reg r)) ∨
    (8 ≤ a.toNat ∧ readReg a s = .error ⟨.outOfRange, a.toNat⟩) := by
  by_cases h : a.toNat < 8
  · obtain ⟨r, rfl⟩ := exists_regByte h
    exact .inl ⟨r, rfl, readReg_regByte r s⟩
  · exact .inr ⟨Nat.not_lt.1 h, readReg_bad (Nat.not_lt.1 h) s⟩

/-- Everything a register write can do (R24). -/
theorem writeReg_cases (a v : Byte) (s : State) :
    (∃ r, a = regByte r ∧ writeReg a v s = .ok (s.setReg r v)) ∨
    (8 ≤ a.toNat ∧ writeReg a v s = .error ⟨.outOfRange, a.toNat⟩) := by
  by_cases h : a.toNat < 8
  · obtain ⟨r, rfl⟩ := exists_regByte h
    exact .inl ⟨r, rfl, writeReg_regByte r v s⟩
  · exact .inr ⟨Nat.not_lt.1 h, writeReg_bad (Nat.not_lt.1 h) v s⟩

/-! ### Stack pointer and stores -/

/-- Everything the push check can do (44_stack.md R150). -/
theorem pushAddress_cases (s : State) :
    (s.sp.toNat ≠ 0 ∧ pushAddress s = .ok (s.sp.toNat - 1)) ∨
    (s.sp.toNat = 0 ∧ pushAddress s = .error ⟨.stackUnderflow, 0⟩) := by
  unfold pushAddress
  split <;> simp [*]

/-- Everything the pop check can do (R150). -/
theorem popAddress_cases (s : State) :
    (s.sp.toNat ≠ 255 ∧ popAddress s = .ok s.sp.toNat) ∨
    (s.sp.toNat = 255 ∧ popAddress s = .error ⟨.stackOverflow, 255⟩) := by
  unfold popAddress
  split <;> simp [*]

/-- Everything the increment of the stack pointer can do (R150, R152). -/
theorem incrementSp_cases (s : State) :
    (s.sp.toNat ≠ 255 ∧ incrementSp s = .ok (s.setReg spIndex (BitVec.ofNat 8 (s.sp.toNat + 1)))) ∨
    (s.sp.toNat = 255 ∧ incrementSp s = .error ⟨.stackOverflow, 255⟩) := by
  unfold incrementSp
  split <;> simp [*]

/-- A store in range. -/
theorem storeByte_of_le {addr : Nat} (h : addr ≤ 255) (v : Nat) (s : State) :
    storeByte addr v s = .ok (s.setMem (Memory.write s.mem addr (BitVec.ofNat 8 v))) := by
  simp [storeByte, memWrite, h, bind, Except.bind]

/-- A load in range. -/
theorem loadByte_of_le {addr : Nat} (h : addr ≤ 255) (s : State) : loadByte addr s = .ok (Memory.read s.mem addr) := by
  simp [loadByte, memRead, h]

/-! ### Commit and completion -/

/-- Everything the commit can do (40_fetch_decode_execute.md R106, R107). -/
theorem commit_cases (npc : Nat) (next : NextPc) (s : State) :
    (next = .halt ∧ npc ≤ 255 ∧ commit npc next s = s.halt.setPc (BitVec.ofNat 8 npc)) ∨
    (next = .halt ∧ 255 < npc ∧ commit npc next s = s.halt) ∨
    (∃ t, next = .target t ∧ commit npc next s = s.setPc t) ∨
    (next = .advance ∧ npc ≤ 255 ∧ commit npc next s = s.setPc (BitVec.ofNat 8 npc)) ∨
    (next = .advance ∧ 255 < npc ∧ commit npc next s = takeFatal ⟨.outOfRange, npc⟩ s) := by
  cases next with
  | halt =>
    by_cases h : npc ≤ 255
    · simp [commit, h]
    · simp [commit, h]; omega
  | target t => exact .inr (.inr (.inl ⟨t, rfl, rfl⟩))
  | advance =>
    by_cases h : npc ≤ 255
    · simp [commit, h]
    · simp [commit, h]; omega

@[simp] theorem complete_ok (n : Nat) (s s' : State) (next : NextPc) :
    complete n s (.ok (s', next)) = .next (commit (defaultAdvance n s) next s') := rfl

@[simp] theorem complete_error (n : Nat) (s : State) (e : FatalError) :
    complete n s (.error e) = .next (takeFatal e s) := rfl

/-- An instruction without a target that has a next address. -/
theorem complete_advance_fits {n : Nat} {s s' : State} (h : s.pc.toNat + 1 + n ≤ 255) :
    complete n s (.ok (s', .advance)) = .next (s'.setPc (BitVec.ofNat 8 (s.pc.toNat + 1 + n))) := by
  simp [complete, commit, defaultAdvance, h]

/-- The PC overrun (R107). -/
theorem complete_advance_overruns {n : Nat} {s s' : State} (h : 255 < s.pc.toNat + 1 + n) :
    complete n s (.ok (s', .advance)) = .next (takeFatal ⟨.outOfRange, s.pc.toNat + 1 + n⟩ s') := by
  simp only [complete, commit, defaultAdvance, Nat.not_le.2 h, if_false]

/-- An instruction with a target never overruns (45_control_transfer.md R160). -/
theorem complete_target (n : Nat) (s s' : State) (t : Byte) :
    complete n s (.ok (s', .target t)) = .next (s'.setPc t) := rfl

/-- An instruction always ends in a next state (R100: there is no fourth outcome). -/
theorem complete_next (n : Nat) (s : State) (result : Except FatalError (State × NextPc)) :
    ∃ t, complete n s result = .next t := by
  rcases result with e | ⟨s', next⟩ <;> exact ⟨_, rfl⟩

/-- Everything the end of an instruction can do: the fatal error of the operation, or the commit of its effects. -/
theorem complete_cases {n : Nat} {s t : State} {result : Except FatalError (State × NextPc)}
    (h : complete n s result = .next t) :
    (∃ e, result = .error e ∧ t = takeFatal e s) ∨
    (∃ s' next, result = .ok (s', next) ∧ t = commit (defaultAdvance n s) next s') := by
  rcases result with e | ⟨s', next⟩ <;> cases h
  · exact .inl ⟨e, rfl, rfl⟩
  · exact .inr ⟨s', next, rfl, rfl⟩

/-- The commit touches only the pc, the run state and the error status. -/
theorem commit_frame (npc : Nat) (next : NextPc) (s : State) :
    (commit npc next s).regs = s.regs ∧ (commit npc next s).fl = s.fl ∧ (commit npc next s).mem = s.mem ∧
    (commit npc next s).output = s.output := by
  rcases commit_cases npc next s with ⟨_, _, h⟩ | ⟨_, _, h⟩ | ⟨_, _, h⟩ | ⟨_, _, h⟩ | ⟨_, _, h⟩ <;> simp [h]

end Sys2Proof.Machine
end

