-- ==== Sys2Proof/Laws/PerInstr.lean ====
section
/-! SUPPORT. Families of statements about every instruction as syntax, one lemma per constructor.

`Arity`: bits 7:6 of the opcode byte equal the number of operand bytes (30_encoding.md R87). -/

namespace Sys2Proof.Laws.Arity

/-- The operand count in the opcode byte is the number of operand bytes the encoding has (R87). -/
def Statement (i : Instr) : Prop := operandCount i.opcode = i.operands.length

theorem hlt : Statement .hlt := by simp [Statement, Instr.opcode, Instr.operands, operandCount]
theorem ldi (a b : Byte) : Statement (.ldi a b) := by simp [Statement, Instr.opcode, Instr.operands, operandCount]
theorem prn (a : Byte) : Statement (.prn a) := by simp [Statement, Instr.opcode, Instr.operands, operandCount]
theorem add (a b : Byte) : Statement (.add a b) := by simp [Statement, Instr.opcode, Instr.operands, operandCount]
theorem mul (a b : Byte) : Statement (.mul a b) := by simp [Statement, Instr.opcode, Instr.operands, operandCount]
theorem cmp (a b : Byte) : Statement (.cmp a b) := by simp [Statement, Instr.opcode, Instr.operands, operandCount]
theorem sub (a b : Byte) : Statement (.sub a b) := by simp [Statement, Instr.opcode, Instr.operands, operandCount]
theorem div (a b : Byte) : Statement (.div a b) := by simp [Statement, Instr.opcode, Instr.operands, operandCount]
theorem and (a b : Byte) : Statement (.and a b) := by simp [Statement, Instr.opcode, Instr.operands, operandCount]
theorem or (a b : Byte) : Statement (.or a b) := by simp [Statement, Instr.opcode, Instr.operands, operandCount]
theorem xor (a b : Byte) : Statement (.xor a b) := by simp [Statement, Instr.opcode, Instr.operands, operandCount]
theorem not (a : Byte) : Statement (.not a) := by simp [Statement, Instr.opcode, Instr.operands, operandCount]
theorem push (a : Byte) : Statement (.push a) := by simp [Statement, Instr.opcode, Instr.operands, operandCount]
theorem pop (a : Byte) : Statement (.pop a) := by simp [Statement, Instr.opcode, Instr.operands, operandCount]
theorem call (a : Byte) : Statement (.call a) := by simp [Statement, Instr.opcode, Instr.operands, operandCount]
theorem ret : Statement .ret := by simp [Statement, Instr.opcode, Instr.operands, operandCount]
theorem jmp (a : Byte) : Statement (.jmp a) := by simp [Statement, Instr.opcode, Instr.operands, operandCount]
theorem jeq (a : Byte) : Statement (.jeq a) := by simp [Statement, Instr.opcode, Instr.operands, operandCount]
theorem jne (a : Byte) : Statement (.jne a) := by simp [Statement, Instr.opcode, Instr.operands, operandCount]

end Sys2Proof.Laws.Arity
end

