-- ==== Sys2Proof/Laws/Step.lean ====
section
/-! SUPPORT. The fetch and the step, unfolded once: cite these instead of unfolding `fetch`, `decodeFrom` or `step`. -/

namespace Sys2Proof.Machine

theorem pc_toNat_le (s : State) : s.pc.toNat ≤ 255 := by have := s.pc.isLt; omega

/-- The fetch, with the opcode read done: the pc is a byte, so that read is never out of range (40_fetch_decode_execute.md
R102). -/
theorem fetch_eq (c : Config) (s : State) :
    fetch c s =
      match opcodeRow? c (Memory.read s.mem s.pc.toNat) with
      | none =>
        if c.nopZero && Memory.read s.mem s.pc.toNat == 0 then .ok .nopZero
        else .error ⟨.unknownInstruction, (Memory.read s.mem s.pc.toNat).toNat⟩
      | some row =>
        Except.bind (if 1 ≤ operandCount (Memory.read s.mem s.pc.toNat) then loadByte (s.pc.toNat + 1) s else .ok 0)
          fun a => Except.bind
            (if 2 ≤ operandCount (Memory.read s.mem s.pc.toNat) then loadByte (s.pc.toNat + 2) s else .ok 0)
            fun b => .ok (.instr (row.build a b)) := by
  simp only [fetch, decodeFrom, Nat.add_zero, loadByte_of_le (pc_toNat_le s), bind, Except.bind]
  cases opcodeRow? c (Memory.read s.mem s.pc.toNat) with
  | none => rfl
  | some row =>
    by_cases h₁ : 1 ≤ operandCount (Memory.read s.mem s.pc.toNat) <;>
      by_cases h₂ : 2 ≤ operandCount (Memory.read s.mem s.pc.toNat) <;> simp [h₁, h₂]

/-- A Halted core performs no step (R110). -/
theorem stepWith_halted {c : Config} {s : State} (h : s.run = .halted) : stepWith c s = .next s := by
  simp [stepWith, h]

/-- A step of a Running core is decided by its fetch: a fetch that fails is a fatal error … -/
theorem stepWith_of_fetch_error {c : Config} {s : State} {e : FatalError} (h : s.run = .running)
    (hf : fetch c s = .error e) : stepWith c s = .next (takeFatal e s) := by
  simp [stepWith, h, hf]

/-- … and a fetch that gives an instruction runs it. -/
theorem stepWith_of_fetch_instr {c : Config} {s : State} {i : Instr} (h : s.run = .running)
    (hf : fetch c s = .ok (.instr i)) : stepWith c s = exec i s := by
  simp [stepWith, h, hf]

/-- The no-op of `NOP_ZERO`. -/
theorem stepWith_of_fetch_nopZero {c : Config} {s : State} (h : s.run = .running)
    (hf : fetch c s = .ok .nopZero) : stepWith c s = execNopZero s := by
  simp [stepWith, h, hf]

theorem step_eq (s : State) : step s = stepWith .ls8Core s := rfl

/-- Every instruction is one completion, of as many operand bytes as its encoding has (R104). -/
theorem exec_eq_complete (i : Instr) (s : State) :
    ∃ result, exec i s = complete i.operands.length s result := by
  cases i <;> simp only [Instr.operands, List.length_cons, List.length_nil, Nat.zero_add, Nat.reduceAdd] <;>
    simp only [exec, execHlt, execLdi, execPrn, execAdd, execMul, execCmp, execSub, execDiv, execAnd, execOr, execXor,
      execNot, execPush, execPop, execCall, execRet, execJmp, execJeq, execJne] <;> exact ⟨_, rfl⟩

/-- Every instruction ends in a next state (R100). -/
theorem exec_next (i : Instr) (s : State) : ∃ t, exec i s = .next t := by
  obtain ⟨r, h⟩ := exec_eq_complete i s
  exact h ▸ complete_next _ _ r

/-- The instruction a row of the map builds has that row's byte, belongs to the configuration, and its operands are the first
of the two bytes given. -/
theorem build_opcode {c : Config} {row : OpcodeRow} (h : row ∈ opcodeTable) (he : row.needsExt = true → c.aluExt = true)
    (a b : Byte) : (row.build a b).opcode = row.opcode ∧ (row.build a b).wellFormed c = true ∧
      (row.build a b).operands = [a, b].take (operandCount row.opcode) := by
  simp only [opcodeTable, baseOpcodes, extensionOpcodes, List.cons_append, List.nil_append, List.mem_cons,
    List.not_mem_nil, or_false] at h
  rcases h with rfl | rfl | rfl | rfl | rfl | rfl | rfl | rfl | rfl | rfl | rfl | rfl | rfl | rfl | rfl | rfl | rfl | rfl |
    rfl <;> simp [Instr.opcode, Instr.operands, Instr.wellFormed, Instr.isExtension, operandCount] <;> simpa using he

/-- Everything a fetch can do: an unrecognised opcode; an operand beyond the top of memory; or a well-formed instruction
whose opcode and operand bytes are the cells from the pc on, all of them in memory (R102, R103). The no-op of `NOP_ZERO` is
ruled out by the configuration. -/
theorem fetch_cases {c : Config} (hc : c.nopZero = false) (s : State) :
    (opcodeRow? c (Memory.read s.mem s.pc.toNat) = none ∧
      fetch c s = .error ⟨.unknownInstruction, (Memory.read s.mem s.pc.toNat).toNat⟩) ∨
    (255 < s.pc.toNat + operandCount (Memory.read s.mem s.pc.toNat) ∧ fetch c s = .error ⟨.outOfRange, 256⟩) ∨
    (∃ i : Instr, i.wellFormed c = true ∧ i.opcode = Memory.read s.mem s.pc.toNat ∧
      s.pc.toNat + i.operands.length ≤ 255 ∧
      i.operands = [Memory.read s.mem (s.pc.toNat + 1), Memory.read s.mem (s.pc.toNat + 2)].take i.operands.length ∧
      fetch c s = .ok (.instr i)) := by
  have hpc := pc_toNat_le s
  rw [fetch_eq]
  rcases hrow : opcodeRow? c (Memory.read s.mem s.pc.toNat) with _ | row
  · simp [hc]
  · obtain ⟨hmem, hir, hext⟩ := opcodeRow?_some hrow
    have hn : operandCount (Memory.read s.mem s.pc.toNat) ≤ 2 := by
      have := operandCount_opcode (row.build 0 0)
      rw [(build_opcode hmem hext 0 0).1, ← hir] at this
      exact this ▸ operands_length_le _
    generalize hN : operandCount (Memory.read s.mem s.pc.toNat) = n at hn ⊢
    have hbuild := fun a b => build_opcode hmem hext a b
    rw [← hir, hN] at hbuild
    refine .inr ?_
    by_cases hfit : s.pc.toNat + n ≤ 255
    · refine .inr ⟨row.build (if 1 ≤ n then Memory.read s.mem (s.pc.toNat + 1) else 0)
        (if 2 ≤ n then Memory.read s.mem (s.pc.toNat + 2) else 0), (hbuild _ _).2.1, (hbuild _ _).1, ?_, ?_, ?_⟩
      · rw [(hbuild _ _).2.2]; simp; omega
      · rw [(hbuild _ _).2.2]
        have : n = 0 ∨ n = 1 ∨ n = 2 := by omega
        rcases this with rfl | rfl | rfl <;> simp
      · have : n = 0 ∨ n = 1 ∨ n = 2 := by omega
        rcases this with rfl | rfl | rfl
        · rfl
        · simp [loadByte_of_le hfit, Except.bind]
        · simp [loadByte_of_le hfit, loadByte_of_le (show s.pc.toNat + 1 ≤ 255 by omega), Except.bind]
    · refine .inl ⟨by omega, ?_⟩
      by_cases h255 : s.pc.toNat = 255
      · simp [show 1 ≤ n by omega, h255, loadByte, memRead, Except.bind]
      · have h254 : s.pc.toNat = 254 := by omega
        have h2 : n = 2 := by omega
        simp [h2, h254, loadByte, memRead, Except.bind]

/-- Everything a step can do. -/
theorem step_cases {s t : State} (h : step s = .next t) :
    (s.run = .halted ∧ t = s) ∨
    (s.run = .running ∧ opcodeRow? .ls8Core (Memory.read s.mem s.pc.toNat) = none ∧
      t = takeFatal ⟨.unknownInstruction, (Memory.read s.mem s.pc.toNat).toNat⟩ s) ∨
    (s.run = .running ∧ 255 < s.pc.toNat + operandCount (Memory.read s.mem s.pc.toNat) ∧
      t = takeFatal ⟨.outOfRange, 256⟩ s) ∨
    (s.run = .running ∧ ∃ i : Instr, i.opcode = Memory.read s.mem s.pc.toNat ∧ s.pc.toNat + i.operands.length ≤ 255 ∧
      i.operands = [Memory.read s.mem (s.pc.toNat + 1), Memory.read s.mem (s.pc.toNat + 2)].take i.operands.length ∧
      exec i s = .next t) := by
  cases hrun : s.run with
  | halted => rw [step_eq, stepWith_halted hrun] at h; cases h; exact .inl ⟨rfl, rfl⟩
  | running =>
    rw [step_eq] at h
    rcases fetch_cases (c := .ls8Core) rfl s with ⟨hrow, hf⟩ | ⟨hlt, hf⟩ | ⟨i, -, hop, hle, hops, hf⟩
    · rw [stepWith_of_fetch_error hrun hf] at h; cases h; exact .inr (.inl ⟨rfl, hrow, rfl⟩)
    · rw [stepWith_of_fetch_error hrun hf] at h; cases h; exact .inr (.inr (.inl ⟨rfl, hlt, rfl⟩))
    · rw [stepWith_of_fetch_instr hrun hf] at h; exact .inr (.inr (.inr ⟨rfl, i, hop, hle, hops, h⟩))

end Sys2Proof.Machine
end

