-- ==== Sys2Proof/Laws/Safety.lean ====
section
/-! SUPPORT. Runs of several steps. -/

namespace Sys2Proof.Machine

/-- Every step answers a next state: no instruction faults or is refused (R100, R108: every error of the spec is a fatal error,
recorded in the state). -/
theorem step_next (s : State) : ∃ t, step s = .next t := by
  rw [step_eq]
  cases hrun : s.run with
  | halted => exact ⟨s, stepWith_halted hrun⟩
  | running =>
    rcases fetch_cases (c := .ls8Core) rfl s with ⟨-, hf⟩ | ⟨-, hf⟩ | ⟨i, -, -, -, -, hf⟩
    · exact ⟨_, stepWith_of_fetch_error hrun hf⟩
    · exact ⟨_, stepWith_of_fetch_error hrun hf⟩
    · rw [stepWith_of_fetch_instr hrun hf]; exact exec_next i s

/-- The host's run, unfolded once at a next state. -/
theorem run_succ_next (M : Host.Core) (k : Nat) (s t : M.State) (h : M.step s = .next t) :
    M.run (k + 1) s = M.run k t := by
  simp [Host.Core.run, h]

/-- `steps` is the host's run of this machine, as every step of it answers a next state. -/
theorem core_run_eq_steps (k : Nat) (s : State) : Host.Core.run Sys2Proof.core k s = steps k s := by
  induction k generalizing s with
  | zero => rfl
  | succ k ih =>
    obtain ⟨t, h⟩ := step_next s
    rw [run_succ_next Sys2Proof.core k s t h, steps, h]
    exact ih t

/-- One step more, where the first answers a next state. -/
theorem steps_succ {s t : State} (h : step s = .next t) (k : Nat) : steps (k + 1) s = steps k t := by
  simp [steps, h]

end Sys2Proof.Machine
end

