-- ==== Sys2Proof/Tests/Slice0.lean ====
section
/-! SUPPORT. The tests of the model and the witnesses of its statements. The expected values of the tests are those of
spec/95_test_vectors.md, derived there from the rules; each test names its vector (V-…). -/

namespace Sys2Proof.Tests
open Sys2Proof.Machine Sys2Proof.Stated

/-! ### Helpers -/

/-- The reset state with the pc at `pc` and `bytes` in the cells from there on. -/
def stateAt (pc : Nat) (bytes : List Byte) : State :=
  { State.reset with pc := BitVec.ofNat 8 pc, mem := placeBytes [] pc bytes }

/-- `x[0] = a` and `x[1] = b`. -/
def withAB (a b : Byte) (s : State) : State := (s.setReg 0 a).setReg 1 b

/-- A cell filled by hand. -/
def withCell (addr : Nat) (v : Byte) (s : State) : State := s.setMem (Memory.write s.mem addr v)

/-- The state after one step. -/
def after (s : State) : Option State :=
  match step s with
  | .next t => some t
  | .fault _ => none
  | .refused _ => none

/-- What is read off the state after one step. -/
def see {α : Type} (s : State) (f : State → α) : Option α := (after s).map f

/-- How the core stands. -/
structure Ending where
  run : RunState
  err : Option ErrKind
  errinfo : Nat
  pc : Byte
deriving DecidableEq, Repr

def ending (t : State) : Ending := ⟨t.run, t.err, t.errinfo, t.pc⟩

/-! ### Well-formedness: a term each check refuses -/

theorem test_wellFormed_refuses_extension_in_base :
    Instr.wellFormed .ls8CoreBase (.sub 0 1) = false ∧ Instr.wellFormed .ls8Core (.sub 0 1) = true ∧
    Instr.wellFormed .ls8CoreBase (.add 0 1) = true := by decide

theorem test_registersValid_refuses_index_8 :
    Instr.registersValid (.ldi 8 0) = false ∧ Instr.registersValid (.add 7 8) = false ∧
    Instr.registersValid (.ldi 7 255) = true := by decide

theorem test_memory_wf_refuses :
    ¬ Memory.wf [(1, 1), (0, 1)] ∧ ¬ Memory.wf [(0, 1), (0, 2)] ∧ ¬ Memory.wf [(256, 1)] ∧ ¬ Memory.wf [(0, 0)] ∧
    Memory.wf [(0, 1), (255, 2)] := by decide

/-! ### Decoding: a word of every constructor, written out bit by bit from 30_encoding.md R84 and R85 -/

theorem test_decode_system_and_data :
    decode .ls8Core [0b00000001] = .ok (.instr .hlt, []) ∧
    decode .ls8Core [0b10000010, 0b00000011, 0b11001000] = .ok (.instr (.ldi 3 200), []) ∧
    decode .ls8Core [0b01000111, 0b00000010] = .ok (.instr (.prn 2), []) := ⟨rfl, rfl, rfl⟩

theorem test_decode_alu :
    decode .ls8Core [0b10100000, 0b00000001, 0b00000010] = .ok (.instr (.add 1 2), []) ∧
    decode .ls8Core [0b10100010, 0b00000011, 0b00000100] = .ok (.instr (.mul 3 4), []) ∧
    decode .ls8Core [0b10100111, 0b00000101, 0b00000110] = .ok (.instr (.cmp 5 6), []) := ⟨rfl, rfl, rfl⟩

theorem test_decode_alu_extension :
    decode .ls8Core [0b10100001, 0b00000001, 0b00000010] = .ok (.instr (.sub 1 2), []) ∧
    decode .ls8Core [0b10100011, 0b00000011, 0b00000100] = .ok (.instr (.div 3 4), []) ∧
    decode .ls8Core [0b10101000, 0b00000001, 0b00000111] = .ok (.instr (.and 1 7), []) ∧
    decode .ls8Core [0b10101010, 0b00000010, 0b00000000] = .ok (.instr (.or 2 0), []) ∧
    decode .ls8Core [0b10101011, 0b00000110, 0b00000101] = .ok (.instr (.xor 6 5), []) ∧
    decode .ls8Core [0b01101001, 0b00000100] = .ok (.instr (.not 4), []) := ⟨rfl, rfl, rfl, rfl, rfl, rfl⟩

theorem test_decode_stack :
    decode .ls8Core [0b01000101, 0b00000001] = .ok (.instr (.push 1), []) ∧
    decode .ls8Core [0b01000110, 0b00000111] = .ok (.instr (.pop 7), []) := ⟨rfl, rfl⟩

theorem test_decode_control :
    decode .ls8Core [0b01010000, 0b00000001] = .ok (.instr (.call 1), []) ∧
    decode .ls8Core [0b00010001] = .ok (.instr .ret, []) ∧
    decode .ls8Core [0b01010100, 0b00000010] = .ok (.instr (.jmp 2), []) ∧
    decode .ls8Core [0b01010101, 0b00000011] = .ok (.instr (.jeq 3), []) ∧
    decode .ls8Core [0b01010110, 0b11111111] = .ok (.instr (.jne 255), []) := ⟨rfl, rfl, rfl, rfl, rfl⟩

/-- V-DEC-2 to V-DEC-6 (R86), on bytes: an unrecognised opcode is named, and so is a missing operand. -/
theorem test_decode_rejects_by_name :
    decode .ls8Core [0x00, 0x01] = .error (.unknownInstruction 0x00) ∧
    decode .ls8Core [0xC0] = .error (.unknownInstruction 0xC0) ∧
    decode .ls8Core [0x83, 0x00, 0x01] = .error (.unknownInstruction 0x83) ∧
    decode .ls8CoreBase [0xA1, 0x00, 0x01] = .error (.unknownInstruction 0xA1) ∧
    decode .ls8Core [] = .error .noBytes ∧
    decode .ls8Core [0x82] = .error (.missingOperand 1) ∧
    decode .ls8Core [0x82, 0x00] = .error (.missingOperand 2) := ⟨rfl, rfl, rfl, rfl, rfl, rfl, rfl⟩

/-- R86: 19 of the 256 byte values are recognised, 13 in the base configuration. -/
theorem test_recognised_counts :
    ((List.range 256).filter fun n => (opcodeRow? .ls8Core (BitVec.ofNat 8 n)).isSome).length = 19 ∧
    ((List.range 256).filter fun n => (opcodeRow? .ls8CoreBase (BitVec.ofNat 8 n)).isSome).length = 13 := by
  decide +kernel

/-- R87: bits 7:6 of every recognised byte are its operand count, and no byte stands twice. -/
theorem test_arity_constraint :
    (opcodeTable.all fun row => operandCount row.opcode == (row.build 0 0).operands.length) = true ∧
    (opcodeTable.map (·.opcode)).Nodup := by decide

/-- The numbering of spec/opcode_table.json: byte 1 of LDI is bits 15:8, byte 2 is bits 23:16. -/
theorem test_table_word_numbering :
    decodeTableWord 24 0x090182 = some (.ldi 1 9) ∧ decodeTableWord 16 0x0247 = some (.prn 2) ∧
    decodeTableWord 8 0x01 = some .hlt ∧ decodeTableWord 8 0x82 = some (.ldi 0 0) ∧
    decodeTableWord 8 0x00 = none := by decide

/-! ### The step -/

theorem test_reset_inv : State.reset.Inv := by decide

/-- V-DEC-1 and V-DEC-4: the opcode is judged before any operand fetch. -/
theorem test_unknown_instruction :
    see (stateAt 0 []) ending = some ⟨.halted, some .unknownInstruction, 0x00, 0⟩ ∧
    see (stateAt 255 [0xC0]) ending = some ⟨.halted, some .unknownInstruction, 0xC0, 255⟩ := by decide

/-- V-DEC-9 and V-DEC-10. -/
theorem test_operand_fetch_out_of_range :
    see (stateAt 254 [0x82, 0x01]) ending = some ⟨.halted, some .outOfRange, 256, 254⟩ ∧
    see (stateAt 255 [0x82]) ending = some ⟨.halted, some .outOfRange, 256, 255⟩ := by decide

/-- V-DEC-8: a Halted core stays as it is. -/
theorem test_halted_stays : after (State.reset.halt) = some State.reset.halt := by decide

/-- V-RST-3: nothing survives a reset. -/
theorem test_reset_input : (failed (withAB 9 9 (stateAt 16 [0xA7])) .outOfRange 8).resetInput = State.reset := by decide

/-- R172, D23: two of the three cells at pc 254. -/
theorem test_snapshot_at_the_top :
    (stateAt 254 [0x82, 0x01]).snapshot.bytes = [some 0x82, some 0x01, none] := by decide

/-- R190: the codes 0 to 6. -/
theorem test_error_codes :
    [none, some ErrKind.outOfRange, some .unknownInstruction, some .stackUnderflow, some .stackOverflow,
      some .unsupportedAluOperation, some .divideByZero].map errCode = [0, 1, 2, 3, 4, 5, 6] := by decide

/-! ### HLT, LDI, PRN -/

/-- V-HLT-1 and V-HLT-2. -/
theorem test_hlt :
    see (stateAt 0 [0x01]) ending = some ⟨.halted, none, 0, 1⟩ ∧
    see (stateAt 255 [0x01]) ending = some ⟨.halted, none, 0, 255⟩ := by decide

/-- V-LDI-3 and V-LDI-4. -/
theorem test_ldi :
    see (stateAt 0 [0x82, 0x07, 0x10]) (fun t => (t.sp, t.pc)) = some (0x10, 3) ∧
    see (stateAt 0 [0x82, 0x08, 0x01]) (fun t => (t.regs, ending t)) =
      some (State.reset.regs, ⟨.halted, some .outOfRange, 8, 0⟩) := by decide

/-- V-DEC-11: the write stands and the overrun follows. -/
theorem test_ldi_overruns :
    see (stateAt 253 [0x82, 0x01, 0x07]) (fun t => (t.reg 1, ending t)) =
      some (7, ⟨.halted, some .outOfRange, 256, 253⟩) := by decide

/-- V-PRN-2 and V-PRN-4. -/
theorem test_prn :
    see (stateAt 0 [0x47, 0x07]) (fun t => (t.output, t.pc)) = some ([244], 2) ∧
    see (stateAt 0 [0x47, 0x09]) (fun t => (t.output, ending t)) = some ([], ⟨.halted, some .outOfRange, 9, 0⟩) := by decide

/-- V-DEC-12: the byte is emitted and the overrun follows. -/
theorem test_prn_overruns :
    see ((stateAt 254 [0x47, 0x01]).setReg 1 0x33) (fun t => (t.output, ending t)) =
      some ([0x33], ⟨.halted, some .outOfRange, 256, 254⟩) := by decide

/-! ### ALU -/

/-- V-ADD-2, V-ADD-8 and V-ADD-10. -/
theorem test_add :
    see (withAB 200 100 (stateAt 0 [0xA0, 0x00, 0x01])) (fun t => (t.reg 0, t.pc)) = some (44, 3) ∧
    see (withAB 0 0x10 (stateAt 0 [0xA0, 0x07, 0x01])) (fun t => t.sp) = some 0x04 ∧
    see (stateAt 0 [0xA0, 0x09, 0x08]) ending = some ⟨.halted, some .outOfRange, 9, 0⟩ := by decide

/-- V-MUL-3 and V-MUL-8. -/
theorem test_mul :
    see (withAB 255 255 (stateAt 0 [0xA2, 0x00, 0x01])) (fun t => (t.reg 0, t.pc)) = some (1, 3) ∧
    see (withAB 12 0 (stateAt 0 [0xA2, 0x00, 0x00])) (fun t => t.reg 0) = some 144 := by decide

/-- V-CMP-1, V-CMP-2 and V-CMP-4. -/
theorem test_cmp :
    see (withAB 5 5 (stateAt 0 [0xA7, 0x00, 0x01])) (fun t => (t.fl, t.pc)) = some (0x01, 3) ∧
    see (withAB 3 7 (stateAt 0 [0xA7, 0x00, 0x01])) (fun t => t.fl) = some 0x04 ∧
    see (withAB 0x80 0x7F (stateAt 0 [0xA7, 0x00, 0x01])) (fun t => t.fl) = some 0x02 := by decide

/-- V-CMP-8 and V-CMP-9: overwritten, not merged; kept where the instruction fails. -/
theorem test_cmp_flags :
    see ((withAB 4 4 (stateAt 0 [0xA7, 0x00, 0x01])).setFl 0x04) (fun t => t.fl) = some 0x01 ∧
    see ((stateAt 0 [0xA7, 0x00, 0x08]).setFl 0x02) (fun t => (t.fl, ending t)) =
      some (0x02, ⟨.halted, some .outOfRange, 8, 0⟩) := by decide

/-- V-SUB-2 and V-SUB-6. -/
theorem test_sub :
    see (withAB 3 5 (stateAt 0 [0xA1, 0x00, 0x01])) (fun t => (t.reg 0, t.pc)) = some (254, 3) ∧
    see (withAB 0 255 (stateAt 0 [0xA1, 0x00, 0x01])) (fun t => t.reg 0) = some 1 := by decide

/-- V-DIV-2 and V-DIV-6. -/
theorem test_div :
    see (withAB 255 16 (stateAt 0 [0xA3, 0x00, 0x01])) (fun t => (t.reg 0, t.pc)) = some (15, 3) ∧
    see (withAB 0x80 0xFF (stateAt 0 [0xA3, 0x00, 0x01])) (fun t => t.reg 0) = some 0 := by decide

/-- V-DIV-7 and V-DIV-10. -/
theorem test_div_errors :
    see (withAB 5 0 (stateAt 0 [0xA3, 0x00, 0x01])) (fun t => (t.reg 0, ending t)) =
      some (5, ⟨.halted, some .divideByZero, 5, 0⟩) ∧
    see (withAB 5 0 (stateAt 0 [0xA3, 0x00, 0x09])) ending = some ⟨.halted, some .outOfRange, 9, 0⟩ := by decide

/-- V-AND-1 and V-AND-3. -/
theorem test_and :
    see (withAB 0xCC 0xAA (stateAt 0 [0xA8, 0x00, 0x01])) (fun t => (t.reg 0, t.pc)) = some (0x88, 3) ∧
    see (withAB 0x5A 0xFF (stateAt 0 [0xA8, 0x00, 0x01])) (fun t => t.reg 0) = some 0x5A := by decide

/-- V-OR-1 and V-OR-3. -/
theorem test_or :
    see (withAB 0xCC 0xAA (stateAt 0 [0xAA, 0x00, 0x01])) (fun t => (t.reg 0, t.pc)) = some (0xEE, 3) ∧
    see (withAB 0x0F 0xF0 (stateAt 0 [0xAA, 0x00, 0x01])) (fun t => t.reg 0) = some 0xFF := by decide

/-- V-XOR-1 and V-XOR-2. -/
theorem test_xor :
    see (withAB 0xCC 0xAA (stateAt 0 [0xAB, 0x00, 0x01])) (fun t => (t.reg 0, t.pc)) = some (0x66, 3) ∧
    see (withAB 0x37 0 (stateAt 0 [0xAB, 0x00, 0x00])) (fun t => t.reg 0) = some 0x00 := by decide

/-- V-NOT-3 and V-NOT-4. -/
theorem test_not :
    see (withAB 0x5A 0 (stateAt 0 [0x69, 0x00])) (fun t => (t.reg 0, t.pc)) = some (0xA5, 2) ∧
    see (stateAt 0 [0x69, 0x07]) (fun t => t.sp) = some 0x0B := by decide

/-! ### Stack -/

/-- V-PUSH-1, V-PUSH-3 and V-PUSH-4. -/
theorem test_push :
    see (withAB 42 0 (stateAt 0 [0x45, 0x00])) (fun t => (t.sp, cell t 0xF3, t.pc)) = some (0xF3, 42, 2) ∧
    see ((withAB 7 0 (stateAt 0x10 [0x45, 0x00])).setReg 7 1) (fun t => (t.sp, cell t 0, t.pc)) = some (0, 7, 0x12) ∧
    see (stateAt 0 [0x45, 0x07]) (fun t => (t.sp, cell t 0xF3)) = some (0xF3, 0xF3) := by decide

/-- V-PUSH-2, V-PUSH-5 and V-PUSH-6. -/
theorem test_push_errors :
    see (withCell 0xFF 0x77 ((withAB 42 0 (stateAt 0 [0x45, 0x00])).setReg 7 0)) (fun t => (cell t 0xFF, t.sp, ending t)) =
      some (0x77, 0, ⟨.halted, some .stackUnderflow, 0, 0⟩) ∧
    see ((stateAt 0 [0x45, 0x09]).setReg 7 0) ending = some ⟨.halted, some .stackUnderflow, 0, 0⟩ ∧
    see (stateAt 0 [0x45, 0x09]) (fun t => (t.sp, cell t 0xF3, ending t)) =
      some (0xF4, 0, ⟨.halted, some .outOfRange, 9, 0⟩) := by decide

/-- V-POP-1, V-POP-2 and V-POP-4. -/
theorem test_pop :
    see (withCell 0xF3 42 ((stateAt 0 [0x46, 0x01]).setReg 7 0xF3)) (fun t => (t.reg 1, t.sp, cell t 0xF3, t.pc)) =
      some (42, 0xF4, 42, 2) ∧
    see (withCell 0xFE 9 ((stateAt 0 [0x46, 0x00]).setReg 7 0xFE)) (fun t => (t.reg 0, t.sp)) = some (9, 0xFF) ∧
    see (withCell 0xF3 0x20 ((stateAt 0 [0x46, 0x07]).setReg 7 0xF3)) (fun t => t.sp) = some 0x21 := by decide

/-- V-POP-3, V-POP-5, V-POP-6 and V-POP-8. -/
theorem test_pop_errors :
    see ((withAB 5 0 (stateAt 0 [0x46, 0x00])).setReg 7 0xFF) (fun t => (t.reg 0, t.sp, ending t)) =
      some (5, 0xFF, ⟨.halted, some .stackOverflow, 255, 0⟩) ∧
    see (withCell 0xF3 0xFF ((stateAt 0 [0x46, 0x07]).setReg 7 0xF3)) (fun t => (t.sp, ending t)) =
      some (0xF3, ⟨.halted, some .stackOverflow, 255, 0⟩) ∧
    see ((stateAt 0 [0x46, 0x08]).setReg 7 0xF3) (fun t => (t.sp, ending t)) =
      some (0xF3, ⟨.halted, some .outOfRange, 8, 0⟩) ∧
    see ((stateAt 0 [0x46, 0x09]).setReg 7 0xFF) ending = some ⟨.halted, some .stackOverflow, 255, 0⟩ := by decide

/-! ### Control transfer -/

/-- V-CALL-1, V-CALL-3 and V-CALL-4. -/
theorem test_call :
    see ((stateAt 9 [0x50, 0x02]).setReg 2 0x10) (fun t => (t.sp, cell t 0xF3, t.pc)) = some (0xF3, 0x0B, 0x10) ∧
    see (withAB 0 0x10 (stateAt 0xFE [0x50, 0x01])) (fun t => (t.sp, cell t 0xF3, ending t)) =
      some (0xF3, 0, ⟨.running, none, 0, 0x10⟩) ∧
    see (stateAt 0 [0x50, 0x07]) (fun t => (t.sp, cell t 0xF3, t.pc)) = some (0xF3, 0x02, 0xF3) := by decide

/-- V-CALL-5 and V-CALL-6. -/
theorem test_call_errors :
    see (stateAt 0 [0x50, 0x08]) (fun t => (t.sp, cell t 0xF3, ending t)) =
      some (0xF4, 0, ⟨.halted, some .outOfRange, 8, 0⟩) ∧
    see ((stateAt 0 [0x50, 0x08]).setReg 7 0) ending = some ⟨.halted, some .stackUnderflow, 0, 0⟩ := by decide

/-- V-RET-3 and V-RET-4. -/
theorem test_ret :
    see (withCell 0xFE 0x30 ((stateAt 0 [0x11]).setReg 7 0xFE)) (fun t => (t.pc, t.sp)) = some (0x30, 0xFF) ∧
    see (withCell 0xF3 0x05 ((stateAt 0xFF [0x11]).setReg 7 0xF3)) (fun t => (ending t, t.sp)) =
      some (⟨.running, none, 0, 0x05⟩, 0xF4) := by decide

/-- V-RET-2. -/
theorem test_ret_overflow :
    see (withCell 0xFF 0x30 ((stateAt 0 [0x11]).setReg 7 0xFF)) (fun t => (ending t, t.sp)) =
      some (⟨.halted, some .stackOverflow, 255, 0⟩, 0xFF) := by decide

/-- V-JMP-2 and V-JMP-3. -/
theorem test_jmp :
    see (withAB 0x20 0 (stateAt 0xFE [0x54, 0x00])) ending = some ⟨.running, none, 0, 0x20⟩ ∧
    see (stateAt 0 [0x54, 0x08]) ending = some ⟨.halted, some .outOfRange, 8, 0⟩ := by decide

/-- V-JEQ-1 and V-JEQ-2. -/
theorem test_jeq :
    see (((stateAt 0x0A [0x55, 0x02]).setReg 2 0x14).setFl 0x01) (fun t => t.pc) = some 0x14 ∧
    see (((stateAt 0x0A [0x55, 0x02]).setReg 2 0x14).setFl 0x02) (fun t => t.pc) = some 0x0C := by decide

/-- V-JEQ-5, V-JEQ-6 and V-JEQ-7. -/
theorem test_jeq_bad_index_and_overrun :
    see ((stateAt 0 [0x55, 0x08]).setFl 0x04) ending = some ⟨.running, none, 0, 2⟩ ∧
    see ((stateAt 0 [0x55, 0x08]).setFl 0x01) ending = some ⟨.halted, some .outOfRange, 8, 0⟩ ∧
    see ((stateAt 0xFE [0x55, 0x00]).setFl 0x04) ending = some ⟨.halted, some .outOfRange, 256, 0xFE⟩ := by decide

/-- V-JNE-2, V-JNE-3 and V-JNE-4. -/
theorem test_jne :
    see (((stateAt 0x0A [0x56, 0x02]).setReg 2 0x14).setFl 0x04) (fun t => t.pc) = some 0x14 ∧
    see (((stateAt 0x0A [0x56, 0x02]).setReg 2 0x14).setFl 0x01) (fun t => t.pc) = some 0x0C ∧
    see ((stateAt 0x0A [0x56, 0x02]).setReg 2 0x14) (fun t => t.pc) = some 0x14 := by decide

/-- V-JNE-5 and V-JNE-6. -/
theorem test_jne_bad_index :
    see ((stateAt 0 [0x56, 0x08]).setFl 0x01) ending = some ⟨.running, none, 0, 2⟩ ∧
    see (stateAt 0 [0x56, 0x08]) ending = some ⟨.halted, some .outOfRange, 8, 0⟩ := by decide

/-- The host's placing of a table word: the next step runs it. -/
theorem test_withFetchWord : see (State.reset.withFetchWord 24 0x090182) (fun t => (t.reg 1, t.pc)) = some (9, 3) := by
  decide

/-! ### Witnesses: for each statement with hypotheses, values that meet all of them together

A statement of several clauses has a witness per clause, at the boundary of the clause's range. -/

/-- A Running core with the byte `op` at the pc. -/
abbrev Fetching (op : Byte) (s : State) : Prop := s.run = .running ∧ opcodeAtPc s = op

/-- The hypotheses of `FetchedF0`. -/
abbrev MeetsF0 (op : Byte) : Prop := Fetching op (stateAt 0 [op]) ∧ Fetching op (stateAt 255 [op])

/-- The hypotheses of the two clauses of `FetchedF1`, at 254 and 255. -/
abbrev MeetsF1 (op : Byte) : Prop :=
  (Fetching op (stateAt 254 [op]) ∧ (stateAt 254 [op]).pc.toNat ≤ 254) ∧
  (Fetching op (stateAt 255 [op]) ∧ (stateAt 255 [op]).pc.toNat = 255)

/-- The hypotheses of the two clauses of `FetchedF2`, at 253 and 254. -/
abbrev MeetsF2 (op : Byte) : Prop :=
  (Fetching op (stateAt 253 [op]) ∧ (stateAt 253 [op]).pc.toNat ≤ 253) ∧
  (Fetching op (stateAt 254 [op]) ∧ 254 ≤ (stateAt 254 [op]).pc.toNat)

/-- The hypotheses of the two clauses of `CompletesOrOverruns` for an instruction of `len` bytes, at the last pc with a next
address after the instruction and at the first without. -/
abbrev MeetsEnds (len : Nat) : Prop :=
  (stateAt (255 - len) []).pc.toNat + len ≤ 255 ∧ 255 < (stateAt (256 - len) []).pc.toNat + len

/-- The hypothesis on a bad register index, at both ends of its range. -/
abbrev BadIndices : Prop := 8 ≤ (8 : Byte).toNat ∧ 8 ≤ (255 : Byte).toNat

/-- Everything a two-register ALU statement assumes. -/
abbrev MeetsTwoRegister (op : Byte) : Prop := MeetsF2 op ∧ BadIndices ∧ MeetsEnds 3

/-- Everything a one-register statement assumes of the fetch, the index and the end of memory. -/
abbrev MeetsOneRegister (op : Byte) : Prop := MeetsF1 op ∧ BadIndices ∧ MeetsEnds 2

theorem witness_DecodeInvertsEncode :
    Instr.wellFormed .ls8Core (.not 255) = true ∧ Instr.wellFormed .ls8CoreBase (.ldi 0 255) = true := by decide

theorem witness_DecodedBytesAreTheEncoding :
    decode .ls8Core [0x82, 0, 8, 9] = .ok (.instr (.ldi 0 8), [9]) := rfl

theorem witness_UnrecognisedOpcodeFails : ∀ op ∈ [0x00, 0xC0, 0xFF],
    Fetching op (stateAt 255 [op]) ∧ opcodeAtPc (stateAt 255 [op]) ∉ baseBytes ∧
      opcodeAtPc (stateAt 255 [op]) ∉ extensionBytes := by decide

theorem witness_BaseConfigurationLacksExtension :
    ((stateAt 0 [0xA1]).run = .running ∧ opcodeAtPc (stateAt 0 [0xA1]) ∈ extensionBytes) ∧
    ((stateAt 0 [0x01]).run = .running ∧ opcodeAtPc (stateAt 0 [0x01]) ∈ baseBytes) := by decide

theorem witness_NopZeroOnlyAdvances : MeetsF1 0x00 := by decide

theorem witness_StepRunsDecodedInstruction :
    let s := stateAt 253 [0x82, 0, 8]
    s.run = .running ∧ decode .ls8Core (bytesFrom s.mem s.pc.toNat 3) = .ok (.instr (.ldi 0 8), []) ∧
      Instr.wellFormed .ls8Core (.ldi 0 8) = true := ⟨rfl, rfl, rfl⟩

/-- All operands exist, the last at 255; then the one operand lies at 256. -/
theorem witness_OperandBytesAreFetched :
    (let s := stateAt 253 [0x82, 0, 8]
     Fetching (Instr.ldi 0 8).opcode s ∧ Instr.wellFormed .ls8Core (.ldi 0 8) = true ∧
      ∀ (k : Nat) (b : Byte), (Instr.ldi 0 8).operands[k]? = some b →
        s.pc.toNat + 1 + k ≤ 255 ∧ cell s (s.pc.toNat + 1 + k) = b) ∧
    (let s := stateAt 255 [0x47]
     Fetching (Instr.prn 0).opcode s ∧ 255 < s.pc.toNat + (Instr.prn 0).operands.length) := by
  refine ⟨⟨by decide, rfl, fun k b h => ?_⟩, by decide⟩
  match k, h with
  | 0, h => cases h; decide
  | 1, h => cases h; decide

theorem witness_HaltedCoreNeverMoves : State.reset.halt.run = .halted := rfl

/-- One state for each of the three ways. -/
theorem witness_StepEndsInOneOfThreeWays :
    (State.reset.run = .running ∧ State.reset.err = none) ∧
    see (stateAt 0 [0x54, 0]) ending = some ⟨.running, none, 0, 0⟩ ∧
    see (stateAt 0 [0x01]) ending = some ⟨.halted, none, 0, 1⟩ ∧
    see (stateAt 0 [0xFF]) ending = some ⟨.halted, some .unknownInstruction, 0xFF, 0⟩ := by decide

/-- An atomic error and a PC overrun. -/
theorem witness_FatalErrorIsAtomic :
    (∃ t, step (stateAt 0 [0x82, 8, 1]) = .next t ∧ t.err = some .outOfRange ∧ t.errinfo ≠ 256 ∧
      (stateAt 0 [0x82, 8, 1]).run = .running ∧ (stateAt 0 [0x82, 8, 1]).err = none) ∧
    (∃ t, step (stateAt 254 [0x47, 0]) = .next t ∧ t.err = some .outOfRange ∧ t.errinfo = 256) :=
  ⟨⟨_, rfl, rfl, by decide, rfl, rfl⟩, ⟨_, rfl, rfl, rfl⟩⟩

theorem witness_AgreeingStatesBehaveAlike :
    (stateAt 0 [0x47, 7]).agrees { stateAt 0 [0x47, 7] with err := some .outOfRange, errinfo := 9, output := [1] } := by
  decide

theorem witness_StepKeepsInvariant : (stateAt 0 [0xA7, 0, 1]).Inv ∧ ∃ t, step (stateAt 0 [0xA7, 0, 1]) = .next t ∧ t.fl = 1 :=
  ⟨by decide, _, rfl, rfl⟩

theorem witness_LaunchMeetsInvariant : ∃ t, State.launch [0x01] = .next t ∧ t.mem = [(0, 0x01)] := ⟨_, rfl, rfl⟩

/-- At 256 and 257 bytes. -/
theorem witness_LaunchLoadsProgram :
    (List.replicate 256 (1 : Byte)).length ≤ 256 ∧ 256 < (List.replicate 257 (1 : Byte)).length := by
  rw [List.length_replicate, List.length_replicate]; omega

theorem witness_OnlyCmpWritesFlags : ∃ t, step (stateAt 0 [0xA7, 0, 1]) = .next t ∧ t.fl ≠ (stateAt 0 [0xA7, 0, 1]).fl :=
  ⟨_, rfl, by decide⟩

theorem witness_OnlyPushAndCallWriteMemory :
    ∃ t, step (stateAt 0 [0x45, 7]) = .next t ∧ cell t 0xF3 ≠ cell (stateAt 0 [0x45, 7]) 0xF3 := ⟨_, rfl, by decide⟩

theorem witness_OnlyPrnEmits : ∃ t, step (stateAt 0 [0x47, 7]) = .next t ∧ t.output = [0xF4] := ⟨_, rfl, rfl⟩

/-- One instruction and state for each kind that is raised by an instruction, and for each way it is. -/
theorem witness_FatalErrorCauses :
    (∃ t, exec (.ldi 8 0) (stateAt 0 []) = .next t ∧ t.err = some .outOfRange ∧ t.errinfo = 8) ∧
    (∃ t, exec (.prn 0) (stateAt 254 []) = .next t ∧ t.err = some .outOfRange ∧ t.errinfo = 256) ∧
    (∃ t, exec (.push 0) ((stateAt 0 []).setReg 7 0) = .next t ∧ t.err = some .stackUnderflow) ∧
    (∃ t, exec .ret ((stateAt 0 []).setReg 7 255) = .next t ∧ t.err = some .stackOverflow) ∧
    (∃ t, exec (.pop 7) (withCell 0xF4 255 (stateAt 0 [])) = .next t ∧ t.err = some .stackOverflow) ∧
    (∃ t, exec (.div 0 1) (withAB 5 0 (stateAt 0 [])) = .next t ∧ t.err = some .divideByZero ∧ t.errinfo = 5) ∧
    (stateAt 0 []).err = none :=
  ⟨⟨_, rfl, rfl, rfl⟩, ⟨_, rfl, rfl, rfl⟩, ⟨_, rfl, rfl⟩, ⟨_, rfl, rfl⟩, ⟨_, rfl, rfl⟩, ⟨_, rfl, rfl, rfl⟩, rfl⟩

theorem witness_UnsupportedAluOperationIsUnreachable :
    State.reset.err ≠ some .unsupportedAluOperation ∧ ∃ t, step State.reset = .next t ∧ t.run = .halted :=
  ⟨by decide, _, rfl, rfl⟩

/-- At 255 and 256, for a read and for a write. -/
theorem witness_LoadStoreControlChecksBounds :
    memWrite [] 255 0x1FF = .ok [(255, 0xFF)] ∧ memRead [(255, 0xFF)] 255 = .ok 0xFF ∧
    memRead [] 256 = .error ⟨.outOfRange, 256⟩ ∧ memWrite [] 256 0 = .error ⟨.outOfRange, 256⟩ := ⟨rfl, rfl, rfl, rfl⟩

/-- The same cells written in two orders. -/
theorem witness_EqualCellsMakeEqualMemory :
    let m := Memory.write (Memory.write [] 1 1) 255 2
    let m' := Memory.write (Memory.write [] 255 2) 1 1
    Memory.wf m ∧ Memory.wf m' ∧ ∀ addr : Nat, addr ≤ 255 → Memory.read m addr = Memory.read m' addr :=
  ⟨by decide, by decide, fun _ _ => rfl⟩

theorem witness_SnapshotShowsState :
    (stateAt 253 []).pc.toNat + (2 : Fin 3).val ≤ 255 ∧ 255 < (stateAt 254 []).pc.toNat + (2 : Fin 3).val := by decide

theorem witness_HltHalts : MeetsF0 0x01 := by decide
theorem witness_LdiLoadsImmediate : MeetsF2 0x82 ∧ BadIndices ∧ MeetsEnds 3 := by decide
theorem witness_PrnEmitsRegister : MeetsOneRegister 0x47 := by decide
theorem witness_AddIsSumModulo256 : MeetsTwoRegister 0xA0 := by decide
theorem witness_MulIsProductModulo256 : MeetsTwoRegister 0xA2 := by decide
theorem witness_SubIsDifferenceModulo256 : MeetsTwoRegister 0xA1 := by decide
theorem witness_AndIsBitwise : MeetsTwoRegister 0xA8 := by decide
theorem witness_OrIsBitwise : MeetsTwoRegister 0xAA := by decide
theorem witness_XorIsBitwise : MeetsTwoRegister 0xAB := by decide
theorem witness_NotIsComplement : MeetsOneRegister 0x69 := by decide

/-- Equal, just greater and just less. -/
theorem witness_CmpSetsOneFlag : MeetsTwoRegister 0xA7 ∧
    (let s := withAB 128 128 (stateAt 0 []); s.reg 0 = s.reg 1) ∧
    (let s := withAB 128 127 (stateAt 0 []); (s.reg 0).toNat > (s.reg 1).toNat) ∧
    (let s := withAB 127 128 (stateAt 0 []); (s.reg 0).toNat < (s.reg 1).toNat) := by decide

theorem witness_DivIsFloorOfQuotient : MeetsTwoRegister 0xA3 ∧
    (withAB 5 0 (stateAt 0 [])).reg 1 = 0 ∧ (withAB 5 1 (stateAt 0 [])).reg 1 ≠ 0 := by decide

/-- The stack pointer at 0 and at 1. -/
theorem witness_PushStoresBelowStack : MeetsOneRegister 0x45 ∧
    ((stateAt 0 []).setReg 7 0).reg 7 = 0 ∧ ((stateAt 0 []).setReg 7 1).reg 7 ≠ 0 := by decide

/-- The stack pointer at 255 and at 254, there with the byte 255 and the byte 254 on the stack. -/
theorem witness_PopLoadsFromStack : MeetsOneRegister 0x46 ∧ ((stateAt 0 []).setReg 7 255).reg 7 = 255 ∧
    (let s := withCell 254 255 ((stateAt 0 []).setReg 7 254); s.reg 7 ≠ 255 ∧ cell s (s.reg 7).toNat = 255) ∧
    (let s := withCell 254 254 ((stateAt 0 []).setReg 7 254); s.reg 7 ≠ 255 ∧ cell s (s.reg 7).toNat ≠ 255) ∧
    (6 : Fin 8) ≠ 7 := by decide

theorem witness_CallPushesReturnAddress : MeetsF1 0x50 ∧ BadIndices ∧
    ((stateAt 254 []).setReg 7 0).reg 7 = 0 ∧ ((stateAt 254 []).setReg 7 1).reg 7 ≠ 0 := by decide

theorem witness_RetPopsPc : MeetsF0 0x11 ∧
    ((stateAt 0 []).setReg 7 255).reg 7 = 255 ∧ ((stateAt 0 []).setReg 7 254).reg 7 ≠ 255 := by decide

theorem witness_JmpJumps : MeetsF1 0x54 ∧ BadIndices := by decide

theorem witness_JeqJumpsWhenEqual : MeetsOneRegister 0x55 ∧
    ((stateAt 254 []).setFl 0x01).fl.getLsbD 0 = true ∧ ((stateAt 254 []).setFl 0x06).fl.getLsbD 0 = false := by decide

theorem witness_JneJumpsWhenNotEqual : MeetsOneRegister 0x56 ∧
    ((stateAt 254 []).setFl 0x00).fl.getLsbD 0 = false ∧ ((stateAt 254 []).setFl 0x01).fl.getLsbD 0 = true := by decide

/-- A completion and a failure. -/
theorem witness_RegisterWritersFrame :
    Instr.add 0 1 ∈ [Instr.ldi 0 1, .add 0 1, .mul 0 1, .sub 0 1, .div 0 1, .and 0 1, .or 0 1, .xor 0 1, .not 0] ∧
    (∃ t, exec (.add 0 1) (withAB 200 100 State.reset) = .next t ∧ t.reg 0 = 44) ∧
    (∃ t, exec (.not 8) State.reset = .next t ∧ t.err = some .outOfRange) :=
  ⟨by decide, ⟨_, rfl, rfl⟩, ⟨_, rfl, rfl⟩⟩

/-- HLT, and another of the list. -/
theorem witness_NonRegisterWritersFrame :
    Instr.cmp 0 1 ∈ [Instr.hlt, .prn 0, .cmp 0 1, .jmp 0, .jeq 0, .jne 0] ∧
    (∃ t, exec (.cmp 0 1) State.reset = .next t ∧ t.fl = 1) ∧
    (∃ t, exec .hlt State.reset = .next t ∧ t.run = .halted) := ⟨by decide, ⟨_, rfl, rfl⟩, ⟨_, rfl, rfl⟩⟩

/-- The stack pointer at 1, where the address is 0, and at 0, where there is none. -/
theorem witness_PushersFrame :
    (∃ t, exec (.push 0) (State.reset.setReg 7 1) = .next t ∧ pushAddress (State.reset.setReg 7 1) = .ok 0 ∧ 1 ≠ 0) ∧
    (∃ t, exec (.call 0) (State.reset.setReg 7 0) = .next t ∧
      pushAddress (State.reset.setReg 7 0) = .error ⟨.stackUnderflow, 0⟩) ∧
    Instr.push 0 ∈ [Instr.push 0, .call 0] :=
  ⟨⟨_, rfl, rfl, by decide⟩, ⟨_, rfl, rfl⟩, by decide⟩

theorem witness_PoppersFrame :
    (∃ t, exec (.pop 3) State.reset = .next t ∧ t.sp = 0xF5) ∧ (∃ t, exec .ret State.reset = .next t ∧ t.sp = 0xF5) ∧
    (6 : Fin 8) ≠ 7 ∧ (6 : Fin 8).val ≠ (3 : Byte).toNat ∧ Instr.ret ∈ [Instr.pop 3, .ret] :=
  ⟨⟨_, rfl, rfl⟩, ⟨_, rfl, rfl⟩, by decide, by decide, by decide⟩

/-- At the last pc the statement covers. -/
theorem witness_LdiThenPrnEmitsValue :
    let s := stateAt 250 [0x82, 0x03, 0xC8, 0x47, 0x03]
    s.run = .running ∧ s.pc.toNat + 5 ≤ 255 ∧ cell s s.pc.toNat = 0x82 ∧ cell s (s.pc.toNat + 1) = regByte 3 ∧
      cell s (s.pc.toNat + 2) = 0xC8 ∧ cell s (s.pc.toNat + 3) = 0x47 ∧ cell s (s.pc.toNat + 4) = regByte 3 := by decide

theorem witness_PushThenPopRoundTrips :
    (0 : Fin 8) ≠ 7 ∧ (1 : Fin 8) ≠ 7 ∧ ((stateAt 251 []).setReg 7 1).reg 7 ≠ 0 ∧
      ((stateAt 251 []).setReg 7 1).pc.toNat + 4 ≤ 255 := by decide

theorem witness_CallThenRetResumes : (0 : Fin 8) ≠ 7 ∧ ((stateAt 254 []).setReg 7 1).reg 7 ≠ 0 := by decide

/-- Equal and unequal registers. -/
theorem witness_CmpDecidesJeqAndJne :
    (stateAt 250 []).pc.toNat + 5 ≤ 255 ∧ (withAB 5 5 (stateAt 250 [])).reg 0 = (withAB 5 5 (stateAt 250 [])).reg 1 ∧
      (withAB 3 7 (stateAt 250 [])).reg 0 ≠ (withAB 3 7 (stateAt 250 [])).reg 1 := by decide

/-- Program P5 of spec/95_test_vectors.md from its step 3 on. -/
theorem witness_PushedHltRunsNext :
    let s := (withAB 1 0 (stateAt 6 [0x45, 0x00, 0x47, 0x00, 0x01])).setReg 7 9
    s.run = .running ∧ (0 : Fin 8) ≠ 7 ∧ s.pc.toNat + 2 ≤ 255 ∧ cell s s.pc.toNat = 0x45 ∧
      cell s (s.pc.toNat + 1) = regByte 0 ∧ s.reg 0 = 0x01 ∧ (s.reg 7).toNat = s.pc.toNat + 3 := by decide

theorem witness_SelfJumpNeverHalts :
    let s := (stateAt 254 [0x54, 0x00]).setReg 0 254
    s.run = .running ∧ s.pc.toNat ≤ 254 ∧ cell s s.pc.toNat = 0x54 ∧ cell s (s.pc.toNat + 1) = regByte 0 ∧
      s.reg 0 = s.pc := by decide

/-- PUSH of another register and of register 7, at the last pc the stack pointer allows; CALL through another register (at 254)
and through register 7. -/
theorem witness_StoredByteIsNextOpcode :
    (∀ r ∈ [(0 : Fin 8), 7],
      let s := (stateAt 252 [0x45, regByte r]).setReg 7 255
      Fetching 0x45 s ∧ cell s (s.pc.toNat + 1) = regByte r ∧ (s.reg 7).toNat = s.pc.toNat + 3) ∧
    (∀ a ∈ [(0 : Fin 8), 7],
      let s := ((stateAt 254 [0x50, regByte a]).setReg 0 0x20).setReg 7 0x21
      Fetching 0x50 s ∧ s.pc.toNat ≤ 254 ∧ cell s (s.pc.toNat + 1) = regByte a ∧ s.reg 7 ≠ 0 ∧
        (a ≠ 7 → (s.reg a).toNat = (s.reg 7).toNat - 1)) := by decide

end Sys2Proof.Tests
end

section
/-! PROOFS. What an instruction can do to the state, said once: `exec_cases` (a fatal error of a legal value, or the commit of
the instruction's own effect). The invariant and the frames are derived from it. -/

namespace Sys2Proof.Machine
open Sys2Proof.Stated

/-! ### How an operation ends -/

/-- The value recorded with the error is one that R190 and R191 give for its kind. -/
def FatalError.Legal (e : FatalError) : Prop := errinfoLegal (some e.kind) e.info = true

/-- An operation that, where it raises, raises a legal error, and whose result otherwise meets `P`. -/
def EndsIn {α : Type} (P : α → Prop) : Except FatalError α → Prop
  | .ok x => P x
  | .error e => e.Legal

theorem EndsIn.bind {α β : Type} {P : α → Prop} {Q : β → Prop} {x : Except FatalError α}
    {f : α → Except FatalError β} (hx : EndsIn P x) (hf : ∀ a, P a → EndsIn Q (f a)) : EndsIn Q (x >>= f) := by
  cases x with
  | ok a => exact hf a hx
  | error e => exact hx

/-- A register index above 7, the value of an index error, is a byte. -/
theorem legal_badIndex {a : Byte} (h : 8 ≤ a.toNat) : FatalError.Legal ⟨.outOfRange, a.toNat⟩ := by
  have hle : a.toNat ≤ 255 := by omega
  simp [FatalError.Legal, errinfoLegal, h, hle]

/-- The one address beyond the top of memory that a step can form. -/
theorem legal_topOverrun : FatalError.Legal ⟨.outOfRange, 256⟩ := rfl

theorem readReg_endsIn (a : Byte) (s : State) :
    EndsIn (fun v => ∃ r, a = regByte r ∧ v = s.reg r) (readReg a s) := by
  rcases readReg_cases a s with ⟨r, ha, h⟩ | ⟨ha, h⟩ <;> rw [h]
  · exact ⟨r, ha, rfl⟩
  · exact legal_badIndex ha

theorem writeReg_endsIn (a v : Byte) (s : State) :
    EndsIn (fun s' => ∃ r, a = regByte r ∧ s' = s.setReg r v) (writeReg a v s) := by
  rcases writeReg_cases a v s with ⟨r, ha, h⟩ | ⟨ha, h⟩ <;> rw [h]
  · exact ⟨r, ha, rfl⟩
  · exact legal_badIndex ha

theorem pushAddress_endsIn (s : State) :
    EndsIn (fun addr => pushAddress s = .ok addr ∧ addr ≤ 255) (pushAddress s) := by
  rcases pushAddress_cases s with ⟨-, h⟩ | ⟨-, h⟩ <;> rw [h]
  · exact ⟨rfl, by omega⟩
  · rfl

theorem popAddress_endsIn (s : State) : EndsIn (fun addr => addr ≤ 255) (popAddress s) := by
  have hle : s.sp.toNat ≤ 255 := by omega
  rcases popAddress_cases s with ⟨-, h⟩ | ⟨-, h⟩ <;> rw [h]
  · exact hle
  · rfl

theorem incrementSp_endsIn (s : State) : EndsIn (fun s' => ∃ v, s' = s.setReg spIndex v) (incrementSp s) := by
  rcases incrementSp_cases s with ⟨-, h⟩ | ⟨-, h⟩ <;> rw [h]
  · exact ⟨_, rfl⟩
  · rfl

theorem loadByte_endsIn {addr : Nat} (h : addr ≤ 255) (s : State) : EndsIn (fun _ => True) (loadByte addr s) := by
  rw [loadByte_of_le h]; trivial

theorem storeByte_endsIn {addr : Nat} (h : addr ≤ 255) (v : Nat) (s : State) :
    EndsIn (fun s' => ∃ w, s' = s.setMem (Memory.write s.mem addr w)) (storeByte addr v s) := by
  rw [storeByte_of_le h]; exact ⟨_, rfl⟩

theorem aluDiv_endsIn (va vb : Byte) : EndsIn (fun _ => True) (aluDiv va vb) := by
  have hle : va.toNat ≤ 255 := by omega
  unfold aluDiv
  split
  · exact decide_eq_true hle
  · trivial

/-! ### The effect of each instruction -/

/-- `s'` is `s` with effects instruction `i` can have when it does not raise, the pc not yet moved (R106). -/
def Effect (i : Instr) (s s' : State) : Prop :=
  match i with
  | .hlt | .jmp _ | .jeq _ | .jne _ => s' = s
  | .ldi a _ | .add a _ | .mul a _ | .sub a _ | .div a _ | .and a _ | .or a _ | .xor a _ | .not a =>
    ∃ r v, a = regByte r ∧ s' = s.setReg r v
  | .prn a => ∃ r, a = regByte r ∧ s' = s.emit (s.reg r)
  | .cmp _ _ => ∃ va vb, s' = s.setFl (compareFlags va vb)
  | .push _ | .call _ =>
    ∃ addr v, pushAddress s = .ok addr ∧ addr ≤ 255 ∧
      s' = (s.setReg spIndex (BitVec.ofNat 8 addr)).setMem (Memory.write s.mem addr v)
  | .pop a => ∃ r v w, a = regByte r ∧ s' = (s.setReg r v).setReg spIndex w
  | .ret => ∃ v, s' = s.setReg spIndex v

/-- What the operation of instruction `i`, begun in `s`, hands to the commit: its effect, and a halt for HLT only. -/
def Committed (i : Instr) (s : State) (result : State × NextPc) : Prop :=
  Effect i s result.1 ∧ (result.2 = .halt ↔ i = .hlt)

/-- `hi` asks for an instruction `i` whose effect is to write `x[a]`; each such `i` meets it by `rfl`. -/
theorem aluBinary_committed {f : Byte → Byte → Except FatalError Byte} {i : Instr} (a b : Byte) (s : State)
    (hf : ∀ va vb, EndsIn (fun _ => True) (f va vb)) (hi : Effect i s = Effect (.add a b) s) (hne : i ≠ .hlt) :
    EndsIn (Committed i s) (aluBinary f a b s) := by
  refine (readReg_endsIn a s).bind fun va _ => (readReg_endsIn b s).bind fun vb _ => (hf va vb).bind fun v _ =>
    (writeReg_endsIn a v s).bind fun s' ⟨r, ha, hs⟩ => ⟨?_, by simp [hne]⟩
  rw [hi]
  exact ⟨r, v, ha, hs⟩

/-- As for `aluBinary_committed`, with the jumps, which have no effect but their target. -/
theorem jumpIf_committed {i : Instr} (taken : Bool) (a : Byte) (s : State) (hi : Effect i s = Effect (.jmp a) s)
    (hne : i ≠ .hlt) : EndsIn (Committed i s) (jumpIf taken a s) := by
  have hs : Effect i s s := by rw [hi]; rfl
  cases taken with
  | true => exact (readReg_endsIn a s).bind fun _ _ => ⟨hs, by simp [hne]⟩
  | false => exact ⟨hs, by simp [hne]⟩

/-- Every instruction is the completion of an operation that raises only legal errors and otherwise has the effect of
`Effect`. -/
theorem exec_eq_complete_endsIn (i : Instr) (s : State) :
    ∃ result, exec i s = complete i.operands.length s result ∧ EndsIn (Committed i s) result := by
  cases i with
  | hlt => exact ⟨.ok (s, .halt), rfl, rfl, by simp⟩
  | ldi a b => exact ⟨_, rfl, (writeReg_endsIn a b s).bind fun _ ⟨r, ha, hs⟩ => ⟨⟨r, b, ha, hs⟩, by simp⟩⟩
  | prn a => exact ⟨_, rfl, (readReg_endsIn a s).bind fun _ ⟨r, ha, hv⟩ => ⟨⟨r, ha, by rw [hv]⟩, by simp⟩⟩
  | cmp a b => exact ⟨_, rfl, (readReg_endsIn a s).bind fun va _ => (readReg_endsIn b s).bind fun vb _ =>
      ⟨⟨va, vb, rfl⟩, by simp⟩⟩
  | add a b => exact ⟨_, rfl, aluBinary_committed a b s (fun _ _ => trivial) rfl nofun⟩
  | mul a b => exact ⟨_, rfl, aluBinary_committed a b s (fun _ _ => trivial) rfl nofun⟩
  | sub a b => exact ⟨_, rfl, aluBinary_committed a b s (fun _ _ => trivial) rfl nofun⟩
  | div a b => exact ⟨_, rfl, aluBinary_committed a b s aluDiv_endsIn rfl nofun⟩
  | and a b => exact ⟨_, rfl, aluBinary_committed a b s (fun _ _ => trivial) rfl nofun⟩
  | or a b => exact ⟨_, rfl, aluBinary_committed a b s (fun _ _ => trivial) rfl nofun⟩
  | xor a b => exact ⟨_, rfl, aluBinary_committed a b s (fun _ _ => trivial) rfl nofun⟩
  | not a => exact ⟨_, rfl, (readReg_endsIn a s).bind fun _ _ => (writeReg_endsIn a _ s).bind
      fun _ ⟨r, ha, hs⟩ => ⟨⟨r, _, ha, hs⟩, by simp⟩⟩
  | push a => exact ⟨_, rfl, (pushAddress_endsIn s).bind fun addr ⟨haddr, hle⟩ => (readReg_endsIn a _).bind fun v _ =>
      (storeByte_endsIn hle v.toNat _).bind fun _ ⟨w, hs⟩ => ⟨⟨addr, w, haddr, hle, hs⟩, by simp⟩⟩
  | pop a => exact ⟨_, rfl, (popAddress_endsIn s).bind fun _ hle => (loadByte_endsIn hle s).bind fun v _ =>
      (writeReg_endsIn a v s).bind fun _ ⟨r, ha, hr⟩ => (incrementSp_endsIn _).bind fun _ ⟨w, hs⟩ =>
        ⟨⟨r, v, w, ha, by rw [hs, hr]⟩, by simp⟩⟩
  | call a => exact ⟨_, rfl, (pushAddress_endsIn s).bind fun addr ⟨haddr, hle⟩ =>
      (storeByte_endsIn hle _ _).bind fun s₂ ⟨w, hs⟩ => (readReg_endsIn a s₂).bind fun _ _ =>
        ⟨⟨addr, w, haddr, hle, hs⟩, by simp⟩⟩
  | ret => exact ⟨_, rfl, (popAddress_endsIn s).bind fun _ hle => (loadByte_endsIn hle s).bind fun _ _ =>
      (incrementSp_endsIn s).bind fun _ hs => ⟨hs, by simp⟩⟩
  | jmp a => exact ⟨_, rfl, jumpIf_committed _ a s rfl nofun⟩
  | jeq a => exact ⟨_, rfl, jumpIf_committed _ a s rfl nofun⟩
  | jne a => exact ⟨_, rfl, jumpIf_committed _ a s rfl nofun⟩

/-- Everything an instruction can do: a fatal error of a legal value that changes nothing else, or the commit of its
effect. -/
theorem exec_cases {i : Instr} {s t : State} (h : exec i s = .next t) :
    (∃ e : FatalError, e.Legal ∧ t = takeFatal e s) ∨
    (∃ s' next, Effect i s s' ∧ (next = .halt ↔ i = .hlt) ∧
      t = commit (s.pc.toNat + 1 + i.operands.length) next s') := by
  obtain ⟨result, hresult, hends⟩ := exec_eq_complete_endsIn i s
  rcases complete_cases (hresult ▸ h) with ⟨e, rfl, ht⟩ | ⟨s', next, rfl, ht⟩
  · exact .inl ⟨e, hends, ht⟩
  · obtain ⟨heffect, hnext⟩ := hends
    exact .inr ⟨s', next, heffect, hnext, ht⟩

/-! ### The data an instruction changes: registers, flags, memory, output -/

/-- The data of `t`, everything but the pc and the status, is that of `s`. -/
def SameData (s t : State) : Prop :=
  (∀ r, t.reg r = s.reg r) ∧ t.fl = s.fl ∧ t.mem = s.mem ∧ t.output = s.output

theorem sameData_takeFatal (e : FatalError) (s : State) : SameData s (takeFatal e s) :=
  ⟨fun _ => rfl, rfl, rfl, rfl⟩

theorem sameData_commit (npc : Nat) (next : NextPc) (s : State) : SameData s (commit npc next s) := by
  obtain ⟨hregs, hfl, hmem, hout⟩ := commit_frame npc next s
  exact ⟨fun r => by rw [State.reg, State.reg, hregs], hfl, hmem, hout⟩

/-- After an instruction the data are as its effect leaves them, or, where it raised, as they were. -/
theorem exec_data {i : Instr} {s t : State} (h : exec i s = .next t) :
    SameData s t ∨ ∃ s', Effect i s s' ∧ SameData s' t := by
  rcases exec_cases h with ⟨e, -, rfl⟩ | ⟨s', next, heffect, -, rfl⟩
  · exact .inl (sameData_takeFatal e s)
  · exact .inr ⟨s', heffect, sameData_commit _ _ s'⟩

theorem memoryKept_of_mem_eq {s t : State} (h : t.mem = s.mem) : MemoryKept s t :=
  fun addr => by rw [cell, cell, h]

/-- The three shapes of an effect: registers and output only; CMP's flags (R29); PUSH's or CALL's one write to memory
(R34). -/
theorem Effect.shape {i : Instr} {s s' : State} (h : Effect i s s') :
    (∃ regs output, s' = { s with regs := regs, output := output }) ∨
    (i.opcode = 0xA7 ∧ ∃ va vb, s' = s.setFl (compareFlags va vb)) ∨
    ((i.opcode = 0x45 ∨ i.opcode = 0x50) ∧
      ∃ regs addr v, addr ≤ 255 ∧ s' = { s with regs := regs, mem := Memory.write s.mem addr v }) := by
  cases i with
  | hlt | jmp | jeq | jne => exact .inl ⟨_, _, h⟩
  | ldi | add | mul | sub | div | and | or | xor | not => obtain ⟨r, v, -, hs⟩ := h; exact .inl ⟨_, _, hs⟩
  | prn => obtain ⟨r, -, hs⟩ := h; exact .inl ⟨_, _, hs⟩
  | pop => obtain ⟨r, v, w, -, hs⟩ := h; exact .inl ⟨_, _, hs⟩
  | ret => obtain ⟨v, hs⟩ := h; exact .inl ⟨_, _, hs⟩
  | cmp => exact .inr (.inl ⟨rfl, h⟩)
  | push => obtain ⟨addr, v, -, hle, hs⟩ := h; exact .inr (.inr ⟨.inl rfl, _, addr, v, hle, hs⟩)
  | call => obtain ⟨addr, v, -, hle, hs⟩ := h; exact .inr (.inr ⟨.inr rfl, _, addr, v, hle, hs⟩)

/-- Only CMP has an effect on the flags. -/
theorem Effect.fl_eq {i : Instr} {s s' : State} (h : Effect i s s') (hi : i.opcode ≠ 0xA7) : s'.fl = s.fl := by
  rcases h.shape with ⟨_, _, rfl⟩ | ⟨hcmp, -⟩ | ⟨-, _, _, _, -, rfl⟩
  · rfl
  · exact absurd hcmp hi
  · rfl

/-- Only PUSH and CALL have an effect on memory. -/
theorem Effect.mem_eq {i : Instr} {s s' : State} (h : Effect i s s') (hi : ¬(i.opcode = 0x45 ∨ i.opcode = 0x50)) :
    s'.mem = s.mem := by
  rcases h.shape with ⟨_, _, rfl⟩ | ⟨-, _, _, rfl⟩ | ⟨hpush, -⟩
  · rfl
  · rfl
  · exact absurd hpush hi

/-- No effect touches the run state and the error status: the commit and a fatal error do. -/
theorem Effect.status {i : Instr} {s s' : State} (h : Effect i s s') :
    s'.run = s.run ∧ s'.err = s.err ∧ s'.errinfo = s.errinfo := by
  rcases h.shape with ⟨_, _, rfl⟩ | ⟨-, _, _, rfl⟩ | ⟨-, _, _, _, -, rfl⟩ <;> exact ⟨rfl, rfl, rfl⟩

/-! ### The invariant -/

/-- What CMP writes is one of the values of `fl` (R29). -/
theorem flagsLegal_compareFlags (va vb : Byte) : flagsLegal (compareFlags va vb) := by
  unfold compareFlags
  split
  · exact .inr (.inl rfl)
  · split
    · exact .inr (.inr (.inl rfl))
    · exact .inr (.inr (.inr rfl))

theorem Effect.inv {i : Instr} {s s' : State} (h : Effect i s s') (hs : s.Inv) : s'.Inv := by
  obtain ⟨hmem, hfl, hstatus⟩ := hs
  rcases h.shape with ⟨_, _, rfl⟩ | ⟨-, va, vb, rfl⟩ | ⟨-, _, addr, v, hle, rfl⟩
  · exact ⟨hmem, hfl, hstatus⟩
  · exact ⟨hmem, flagsLegal_compareFlags va vb, hstatus⟩
  · exact ⟨Memory.wf_write hmem (by omega) v, hfl, hstatus⟩

/-- Taking a legal fatal error keeps the invariant (R31, R190). -/
theorem inv_takeFatal {e : FatalError} (he : e.Legal) {s : State} (hs : s.Inv) : (takeFatal e s).Inv := by
  obtain ⟨hmem, hfl, -⟩ := hs
  exact ⟨hmem, hfl, nofun, he⟩

theorem inv_halt {s : State} (hs : s.Inv) : s.halt.Inv := by
  obtain ⟨hmem, hfl, -, hinfo⟩ := hs
  exact ⟨hmem, hfl, nofun, hinfo⟩

/-- The commit keeps the invariant: the one address beyond the top that it can record is 256 (R107, R191). -/
theorem inv_commit {npc : Nat} (hnpc : npc ≤ 256) (next : NextPc) {s : State} (hs : s.Inv) :
    (commit npc next s).Inv := by
  rcases commit_cases npc next s with ⟨-, -, h⟩ | ⟨-, -, h⟩ | ⟨v, -, h⟩ | ⟨-, -, h⟩ | ⟨-, hlt, h⟩ <;> rw [h]
  · exact (inv_halt hs :)
  · exact inv_halt hs
  · exact hs
  · exact hs
  · have : npc = 256 := by omega
    subst this
    exact inv_takeFatal legal_topOverrun hs

/-- An instruction whose bytes all lie in memory keeps the invariant. -/
theorem exec_keeps_inv {i : Instr} {s t : State} (hfit : s.pc.toNat + i.operands.length ≤ 255) (hs : s.Inv)
    (h : exec i s = .next t) : t.Inv := by
  rcases exec_cases h with ⟨e, he, rfl⟩ | ⟨s', next, heffect, -, rfl⟩
  · exact inv_takeFatal he hs
  · exact inv_commit (by omega) next (heffect.inv hs)

theorem legal_unknownInstruction {ir : Byte} (h : opcodeRow? .ls8Core ir = none) :
    FatalError.Legal ⟨.unknownInstruction, ir.toNat⟩ := by
  have hle : ir.toNat ≤ 255 := by omega
  simp [FatalError.Legal, errinfoLegal, h, hle]

/-- Settles O13: each way a step can end keeps the invariant. -/
theorem stepKeepsInvariant : Obligations.StepKeepsInvariant := by
  intro s t hs h
  rcases step_cases h with ⟨-, rfl⟩ | ⟨-, hrow, rfl⟩ | ⟨-, -, rfl⟩ | ⟨-, i, -, hfit, -, hexec⟩
  · exact hs
  · exact inv_takeFatal (legal_unknownInstruction hrow) hs
  · exact inv_takeFatal legal_topOverrun hs
  · exact exec_keeps_inv hfit hs hexec

/-- The loader's writes keep the canonical form of memory (R175). -/
theorem loadBytes_wf {m m' : Memory} (hm : Memory.wf m) {addr : Nat} {program : List Byte}
    (h : loadBytes m addr program = .ok m') : Memory.wf m' := by
  induction program generalizing m addr with
  | nil => cases h; exact hm
  | cons b rest ih =>
    rcases memWrite_cases m addr b.toNat with ⟨hle, hw⟩ | ⟨-, hw⟩ <;> simp only [loadBytes, hw] at h
    · exact ih (Memory.wf_write hm (by omega) _) h
    · cases h

theorem reset_inv : State.reset.Inv := ⟨Memory.wf_nil, .inl rfl, fun _ => rfl, rfl⟩

/-- Settles O14: a load changes nothing but memory, and keeps its canonical form. -/
theorem launchMeetsInvariant : Obligations.LaunchMeetsInvariant := by
  refine ⟨reset_inv, fun program t h => ?_⟩
  obtain ⟨hmem, hfl, hstatus⟩ := reset_inv
  rw [State.launch, State.load] at h
  split at h
  next m hload => cases h; exact ⟨loadBytes_wf hmem hload, hfl, hstatus⟩
  next => cases h

/-- Settles O15: the reset input answers the reset state, whose fields are read off. -/
theorem resetInputRestoresEverything : Obligations.ResetInputRestoresEverything := by
  intro s
  have hregs : ∀ r : Fin 8, State.reset.reg r = if r = 7 then 0xF4 else 0x00 := by decide
  exact ⟨hregs, rfl, rfl, rfl, rfl, rfl, fun _ => rfl, rfl⟩

/-! ### Which step changes the flags and the memory -/

/-- A step that changes the data at all ran the instruction at the pc. -/
theorem step_data {s t : State} (h : step s = .next t) :
    SameData s t ∨ ∃ i s', i.opcode = opcodeAtPc s ∧ Effect i s s' ∧ SameData s' t := by
  rcases step_cases h with ⟨-, rfl⟩ | ⟨-, -, rfl⟩ | ⟨-, -, rfl⟩ | ⟨-, i, hop, -, -, hexec⟩
  · exact .inl ⟨fun _ => rfl, rfl, rfl, rfl⟩
  · exact .inl (sameData_takeFatal _ s)
  · exact .inl (sameData_takeFatal _ s)
  · exact (exec_data hexec).imp_right fun ⟨s', heffect, hdata⟩ => ⟨i, s', hop, heffect, hdata⟩

/-- Settles O17: an instruction with an effect on the flags is CMP. -/
theorem onlyCmpWritesFlags : Obligations.OnlyCmpWritesFlags := by
  intro s t h hne
  by_contra hop
  rcases step_data h with ⟨-, hfl, -, -⟩ | ⟨i, s', hi, heffect, -, hfl, -, -⟩
  · exact hne hfl
  · exact hne (hfl.trans (heffect.fl_eq (hi ▸ hop)))

/-- Settles O18: an instruction with an effect on memory is PUSH or CALL. -/
theorem onlyPushAndCallWriteMemory : Obligations.OnlyPushAndCallWriteMemory := by
  intro s t addr h hne
  by_contra hop
  rcases step_data h with ⟨-, -, hmem, -⟩ | ⟨i, s', hi, heffect, -, -, hmem, -⟩
  · exact hne (memoryKept_of_mem_eq hmem addr)
  · exact hne (memoryKept_of_mem_eq (hmem.trans (heffect.mem_eq (hi ▸ hop))) addr)

/-! ### The status after an instruction -/

/-- Short of a halt the commit leaves the status alone, or ends in the PC overrun (R107). -/
theorem statusKeptOrFailed_commit (npc : Nat) {next : NextPc} (hnext : next ≠ .halt) (s : State) :
    StatusKeptOrFailed s (commit npc next s) := by
  rcases commit_cases npc next s with ⟨hh, -, -⟩ | ⟨hh, -, -⟩ | ⟨v, -, h⟩ | ⟨-, -, h⟩ | ⟨-, -, h⟩
  · exact absurd hh hnext
  · exact absurd hh hnext
  · rw [h]; exact .inl ⟨rfl, rfl, rfl⟩
  · rw [h]; exact .inl ⟨rfl, rfl, rfl⟩
  · rw [h]; exact .inr ⟨rfl, rfl⟩

/-- Every instruction but HLT leaves the status alone or fails. -/
theorem exec_statusKeptOrFailed {i : Instr} {s t : State} (hi : i ≠ .hlt) (h : exec i s = .next t) :
    StatusKeptOrFailed s t := by
  rcases exec_cases h with ⟨e, -, rfl⟩ | ⟨s', next, heffect, hnext, rfl⟩
  · exact .inr ⟨rfl, rfl⟩
  · obtain ⟨hrun, herr, hinfo⟩ := heffect.status
    have := statusKeptOrFailed_commit (s.pc.toNat + 1 + i.operands.length) (mt hnext.1 hi) s'
    rwa [StatusKeptOrFailed, hrun, herr, hinfo] at this

/-- HLT halts the core with the error status as it stands (R120). -/
theorem exec_hlt_status {s t : State} (h : exec .hlt s = .next t) :
    t.run = .halted ∧ t.err = s.err ∧ t.errinfo = s.errinfo := by
  have ht : commit (defaultAdvance 0 s) .halt s = t := by cases h; rfl
  rw [← ht, commit]
  split <;> exact ⟨rfl, rfl, rfl⟩

/-! ### Frames -/

/-- The instructions of `RegisterWritersFrame` have one effect: a byte in `x[a]`. -/
theorem Effect.of_registerWriter {a b : Byte} {i : Instr} {s s' : State} (h : Effect i s s')
    (hi : i ∈ [Instr.ldi a b, .add a b, .mul a b, .sub a b, .div a b, .and a b, .or a b, .xor a b, .not a]) :
    ∃ r v, a = regByte r ∧ s' = s.setReg r v := by
  simp only [List.mem_cons, List.not_mem_nil, or_false] at hi
  rcases hi with rfl | rfl | rfl | rfl | rfl | rfl | rfl | rfl | rfl <;> exact h

/-- A byte in `x[a]` changes no other register. -/
theorem reg_setReg_of_ne {a : Byte} {r q : Fin 8} (ha : a = regByte r) (hq : q.val ≠ a.toNat) (s : State) (v : Byte) :
    (s.setReg r v).reg q = s.reg q := by
  rw [ha, regByte_toNat] at hq
  rw [State.reg_setReg, if_neg fun h => hq (congrArg Fin.val h.symm)]

/-- Settles O44: the nine have one effect, and the status is kept as by every instruction but HLT. -/
theorem registerWritersFrame : Obligations.RegisterWritersFrame := by
  intro a b i s t hi h
  have hstatus : StatusKeptOrFailed s t := exec_statusKeptOrFailed (by rintro rfl; simp at hi) h
  rcases exec_data h with hdata | ⟨s', heffect, hreg, hfl, hmem, hout⟩
  · obtain ⟨hreg, hfl, hmem, hout⟩ := hdata
    exact ⟨fun q _ => hreg q, hfl, hout, memoryKept_of_mem_eq hmem, hstatus⟩
  · obtain ⟨r, v, ha, rfl⟩ := heffect.of_registerWriter hi
    exact ⟨fun q hq => (hreg q).trans (reg_setReg_of_ne ha hq s v), hfl, hout, memoryKept_of_mem_eq hmem, hstatus⟩

/-- The effect of the instructions of `NonRegisterWritersFrame`: CMP's on the flags, PRN's on the output, or none. -/
theorem Effect.of_nonRegisterWriter {a b : Byte} {i : Instr} {s s' : State} (h : Effect i s s')
    (hi : i ∈ [Instr.hlt, .prn a, .cmp a b, .jmp a, .jeq a, .jne a]) :
    s' = s ∨ (i = .cmp a b ∧ ∃ f, s' = s.setFl f) ∨ (i = .prn a ∧ ∃ v, s' = s.emit v) := by
  simp only [List.mem_cons, List.not_mem_nil, or_false] at hi
  rcases hi with rfl | rfl | rfl | rfl | rfl | rfl
  · exact .inl h
  · obtain ⟨r, -, hs⟩ := h; exact .inr (.inr ⟨rfl, _, hs⟩)
  · obtain ⟨va, vb, hs⟩ := h; exact .inr (.inl ⟨rfl, _, hs⟩)
  · exact .inl h
  · exact .inl h
  · exact .inl h

/-- Settles O45: no effect of the six is on a register or a cell. -/
theorem nonRegisterWritersFrame : Obligations.NonRegisterWritersFrame := by
  intro a b i s t hi h
  have hstatus : i ≠ .hlt → StatusKeptOrFailed s t := fun hne => exec_statusKeptOrFailed hne h
  have hhlt : i = .hlt → t.run = .halted ∧ t.err = s.err ∧ t.errinfo = s.errinfo := by
    rintro rfl; exact exec_hlt_status h
  rcases exec_data h with hdata | ⟨s', heffect, hdata⟩
  · obtain ⟨hreg, hfl, hmem, hout⟩ := hdata
    exact ⟨hreg, memoryKept_of_mem_eq hmem, fun _ => hfl, fun _ => hout, hstatus, hhlt⟩
  · obtain ⟨hreg, hfl, hmem, hout⟩ := hdata
    rcases heffect.of_nonRegisterWriter hi with rfl | ⟨hcmp, f, rfl⟩ | ⟨hprn, v, rfl⟩
    · exact ⟨hreg, memoryKept_of_mem_eq hmem, fun _ => hfl, fun _ => hout, hstatus, hhlt⟩
    · exact ⟨hreg, memoryKept_of_mem_eq hmem, fun hne => absurd hcmp hne, fun _ => hout, hstatus, hhlt⟩
    · exact ⟨hreg, memoryKept_of_mem_eq hmem, fun _ => hfl, fun hne => absurd hprn hne, hstatus, hhlt⟩

/-- PUSH and CALL have the same effect. -/
theorem Effect.of_pusher {a : Byte} {i : Instr} {s s' : State} (h : Effect i s s') (hi : i ∈ [Instr.push a, .call a]) :
    ∃ addr v, pushAddress s = .ok addr ∧
      s' = (s.setReg spIndex (BitVec.ofNat 8 addr)).setMem (Memory.write s.mem addr v) := by
  simp only [List.mem_cons, List.not_mem_nil, or_false] at hi
  rcases hi with rfl | rfl <;> obtain ⟨addr, v, haddr, -, hs⟩ := h <;> exact ⟨addr, v, haddr, hs⟩

/-- Setting the stack pointer changes no other register. -/
theorem reg_setReg_spIndex_of_ne {q : Fin 8} (hq : q ≠ 7) (s : State) (v : Byte) :
    (s.setReg spIndex v).reg q = s.reg q := by
  rw [State.reg_setReg]; exact if_neg hq.symm

/-- Settles O46: the effect of a push is the stack pointer and one cell, at the address `pushAddress` computes. -/
theorem pushersFrame : Obligations.PushersFrame := by
  intro a i s t hi h
  have hstatus : StatusKeptOrFailed s t := exec_statusKeptOrFailed (by rintro rfl; simp at hi) h
  rcases exec_data h with hdata | ⟨s', heffect, hreg, hfl, hmem, hout⟩
  · obtain ⟨hreg, hfl, hmem, hout⟩ := hdata
    exact ⟨fun q _ => hreg q, hfl, hout, hstatus, fun _ _ other _ => memoryKept_of_mem_eq hmem other,
      fun _ _ => memoryKept_of_mem_eq hmem⟩
  · obtain ⟨addr, v, haddr, rfl⟩ := heffect.of_pusher hi
    refine ⟨fun q hq => (hreg q).trans (reg_setReg_spIndex_of_ne hq s _), hfl, hout, hstatus, ?_, ?_⟩
    · intro addr' haddr' other hother
      obtain rfl : addr = addr' := Except.ok.inj (haddr.symm.trans haddr')
      rw [cell, hmem, State.setMem_mem, Memory.read_write, if_neg hother.symm, cell]
    · intro e he
      cases haddr.symm.trans he

/-- The effect of POP and RET on everything but the registers: none. -/
theorem Effect.of_popper {a : Byte} {i : Instr} {s s' : State} (h : Effect i s s') (hi : i ∈ [Instr.pop a, .ret]) :
    s'.fl = s.fl ∧ s'.mem = s.mem ∧ s'.output = s.output := by
  simp only [List.mem_cons, List.not_mem_nil, or_false] at hi
  rcases hi with rfl | rfl
  · obtain ⟨r, v, w, -, rfl⟩ := h; exact ⟨rfl, rfl, rfl⟩
  · obtain ⟨v, rfl⟩ := h; exact ⟨rfl, rfl, rfl⟩

/-- Settles O47: POP writes `x[a]` and the stack pointer, RET the stack pointer, and nothing else. -/
theorem poppersFrame : Obligations.PoppersFrame := by
  refine fun s t => ⟨fun a h q hq hqa => ?_, fun h q hq => ?_, fun a i hi h => ?_⟩
  · rcases exec_data h with ⟨hreg, -⟩ | ⟨s', ⟨r, v, w, ha, rfl⟩, hreg, -⟩
    · exact hreg q
    · rw [hreg q, reg_setReg_spIndex_of_ne hq, reg_setReg_of_ne ha hqa]
  · rcases exec_data h with ⟨hreg, -⟩ | ⟨s', ⟨v, rfl⟩, hreg, -⟩
    · exact hreg q
    · rw [hreg q, reg_setReg_spIndex_of_ne hq]
  · have hstatus : StatusKeptOrFailed s t := exec_statusKeptOrFailed (by rintro rfl; simp at hi) h
    rcases exec_data h with hdata | ⟨s', heffect, -, hfl, hmem, hout⟩
    · obtain ⟨-, hfl, hmem, hout⟩ := hdata
      exact ⟨hfl, hout, memoryKept_of_mem_eq hmem, hstatus⟩
    · obtain ⟨hfl', hmem', hout'⟩ := heffect.of_popper hi
      exact ⟨hfl.trans hfl', hout.trans hout', memoryKept_of_mem_eq (hmem.trans hmem'), hstatus⟩

/-! ### CMP -/

theorem compareFlags_of_eq (v : Byte) : compareFlags v v = 0b00000001 := by
  rw [compareFlags, if_pos rfl]; rfl

theorem compareFlags_of_gt {va vb : Byte} (h : va.toNat > vb.toNat) : compareFlags va vb = 0b00000010 := by
  rw [compareFlags, if_neg (by omega), if_pos h]; rfl

theorem compareFlags_of_lt {va vb : Byte} (h : va.toNat < vb.toNat) : compareFlags va vb = 0b00000100 := by
  rw [compareFlags, if_neg (by omega), if_neg (by omega)]; rfl

/-- The fetch of an opcode byte with two operand bytes, whatever its row builds (R103). -/
theorem fetchedF2_of_row {op : Byte} {ext : Bool} {mk : Byte → Byte → Instr}
    (hrow : opcodeRow? .ls8Core op = some ⟨op, ext, mk⟩) (hcount : operandCount op = 2) : FetchedF2 op mk := by
  intro s hrun hop
  rw [opcodeAtPc, cell] at hop
  have hfetch := fetch_eq .ls8Core s
  simp only [hop, hrow, hcount] at hfetch
  rw [step_eq]
  refine ⟨fun hfit => ?_, fun htop => ?_⟩
  · rw [loadByte_of_le (by omega), loadByte_of_le (by omega)] at hfetch
    exact stepWith_of_fetch_instr hrun hfetch
  · rcases fetch_cases (c := .ls8Core) rfl s with ⟨hnone, -⟩ | ⟨-, hf⟩ | ⟨i, -, hi, hfit, -, -⟩
    · rw [hop, hrow] at hnone; cases hnone
    · exact stepWith_of_fetch_error hrun hf
    · rw [← operandCount_opcode, hi, hop, hcount] at hfit
      omega

theorem checksTwoIndices_cmp : ChecksTwoIndices (fun a b => .cmp a b) := by
  refine ⟨fun a b s ha => ?_, fun a b s hb => ?_⟩
  · simp only [exec, execCmp, readReg_bad ha]; rfl
  · simp only [exec, execCmp, readReg_regByte, readReg_bad hb]; rfl

/-- CMP of two registers is one completion, with the result of the comparison in `fl` (R133). -/
theorem exec_cmp_regByte (a b : Fin 8) (s : State) : exec (.cmp (regByte a) (regByte b)) s =
    complete 2 s (.ok (s.setFl (compareFlags (s.reg a) (s.reg b)), .advance)) := by
  simp only [exec, execCmp, readReg_regByte]; rfl

/-- Settles O30: the fetch by CMP's row, the two checks, and the three cases of `compareFlags`. -/
theorem cmpSetsOneFlag : Obligations.CmpSetsOneFlag := by
  refine ⟨fetchedF2_of_row rfl rfl, checksTwoIndices_cmp, fun a b s => ?_⟩
  have hflag : (s.reg a = s.reg b → compareFlags (s.reg a) (s.reg b) = 0b00000001) ∧
      ((s.reg a).toNat > (s.reg b).toNat → compareFlags (s.reg a) (s.reg b) = 0b00000010) ∧
      ((s.reg a).toNat < (s.reg b).toNat → compareFlags (s.reg a) (s.reg b) = 0b00000100) :=
    ⟨fun h => h ▸ compareFlags_of_eq _, compareFlags_of_gt, compareFlags_of_lt⟩
  refine ⟨fun hfit => ⟨_, ⟨_, rfl, hflag⟩, ?_⟩, fun hover => ⟨_, ⟨_, rfl, hflag⟩, ?_⟩⟩ <;> rw [exec_cmp_regByte]
  · exact complete_advance_fits hfit
  · exact complete_advance_overruns hover

end Sys2Proof.Machine
end

section
/-! PROOFS. Memory and its ports: the bounds checks (20_memory.md R54, R55), the canonical form as a normal form (R50), the
loader (R175), and a stored byte as the next opcode (R63). -/

namespace Sys2Proof.Machine
open Sys2Proof.Stated

/-! ### The load-store control -/

theorem memRead_of_le {addr : Nat} (h : addr ≤ 255) (m : Memory) : memRead m addr = .ok (Memory.read m addr) := if_pos h

theorem memWrite_of_le {addr : Nat} (h : addr ≤ 255) (m : Memory) (v : Nat) :
    memWrite m addr v = .ok (Memory.write m addr (BitVec.ofNat 8 v)) := if_pos h

theorem memRead_of_gt {addr : Nat} (h : 255 < addr) (m : Memory) : memRead m addr = .error ⟨.outOfRange, addr⟩ :=
  if_neg (Nat.not_le.2 h)

theorem memWrite_of_gt {addr : Nat} (h : 255 < addr) (m : Memory) (v : Nat) :
    memWrite m addr v = .error ⟨.outOfRange, addr⟩ := if_neg (Nat.not_le.2 h)

theorem Memory.read_write_same (m : Memory) (a : Nat) (v : Byte) : Memory.read (Memory.write m a v) a = v := by
  rw [Memory.read_write, if_pos rfl]

theorem Memory.read_write_of_ne {a b : Nat} (h : b ≠ a) (m : Memory) (v : Byte) :
    Memory.read (Memory.write m a v) b = Memory.read m b := by
  rw [Memory.read_write, if_neg h.symm]

/-- Settles O22: the two sides of the bounds check, and read after write. -/
theorem loadStoreControlChecksBounds : Obligations.LoadStoreControlChecksBounds := by
  refine fun m addr v => ⟨fun hle => ?_, fun hgt => ⟨memRead_of_gt hgt m, memWrite_of_gt hgt m v⟩⟩
  refine ⟨memRead_of_le hle m, _, memWrite_of_le hle m v, ?_, fun other hne => Memory.read_write_of_ne hne m _⟩
  rw [Memory.read_write_same, BitVec.toNat_ofNat]

/-! ### The canonical form: a memory is the list of its cells that are not `MEM_FILL` -/

/-- A cell that differs from `MEM_FILL` has an entry, in every memory. -/
theorem Memory.mem_of_read_eq {m : Memory} {a : Nat} {v : Byte} (hread : Memory.read m a = v) (hv : v ≠ Config.memFill) :
    (a, v) ∈ m := by
  induction m with
  | nil => exact absurd hread.symm hv
  | cons entry rest ih =>
    obtain ⟨b, w⟩ := entry
    rw [Memory.read] at hread
    split at hread
    next hba => rw [hba, hread]; exact List.mem_cons_self
    next => exact List.mem_cons_of_mem _ (ih hread)

/-- Where addresses strictly rise, each entry is the one its address reads. -/
theorem Memory.read_eq_of_mem {m : Memory} (hsorted : m.Pairwise fun x y => x.1 < y.1) {a : Nat} {v : Byte}
    (hmem : (a, v) ∈ m) : Memory.read m a = v := by
  induction m with
  | nil => cases hmem
  | cons entry rest ih =>
    obtain ⟨b, w⟩ := entry
    obtain ⟨hbelow, hrest⟩ := List.pairwise_cons.1 hsorted
    rw [Memory.read]
    rcases List.mem_cons.1 hmem with heq | hin
    · cases heq; exact if_pos rfl
    · rw [if_neg (hbelow _ hin).ne]; exact ih hrest hin

/-- The entries of a canonical memory: the cells below 256 that differ from `MEM_FILL`. -/
theorem Memory.mem_iff_read {m : Memory} (h : Memory.wf m) (entry : Host.Cell) :
    entry ∈ m ↔ entry.1 ≤ 255 ∧ Memory.read m entry.1 = entry.2 ∧ entry.2 ≠ Config.memFill := by
  obtain ⟨hsorted, hbounds⟩ := h
  constructor
  · intro hin
    obtain ⟨hlt, hne⟩ := hbounds entry hin
    exact ⟨Nat.le_of_lt_succ hlt, Memory.read_eq_of_mem hsorted hin, hne⟩
  · rintro ⟨-, hread, hne⟩
    exact Memory.mem_of_read_eq hread hne

/-- Settles O23: equal cells give equal entries, and a list with strictly rising addresses is determined by its entries. -/
theorem equalCellsMakeEqualMemory : Obligations.EqualCellsMakeEqualMemory := by
  intro m m' hm hm' hcells
  have hmem : ∀ entry, entry ∈ m ↔ entry ∈ m' := fun entry => by
    rw [Memory.mem_iff_read hm, Memory.mem_iff_read hm']
    exact and_congr_right fun hle => by rw [hcells _ hle]
  have : Std.Antisymm fun x y : Host.Cell => x.1 < y.1 := ⟨fun _ _ hxy hyx => absurd hyx hxy.asymm⟩
  have : Std.Irrefl fun x y : Host.Cell => x.1 < y.1 := ⟨fun _ => lt_irrefl _⟩
  exact hm.1.eq_of_mem_iff hm'.1 hmem

/-! ### The loader (47_external_interfaces.md R175) -/

/-- The loader's first write, where it is in range. -/
theorem loadBytes_cons_of_le {addr : Nat} (h : addr ≤ 255) (m : Memory) (b : Byte) (rest : List Byte) :
    loadBytes m addr (b :: rest) = loadBytes (Memory.write m addr b) (addr + 1) rest := by
  rw [loadBytes, memWrite_of_le h, BitVec.ofNat_toNat, BitVec.setWidth_eq]

/-- Bytes that all lie in memory are loaded one per cell, and no other cell changes. -/
theorem loadBytes_of_fits {program : List Byte} {addr : Nat} (h : addr + program.length ≤ 256) (m : Memory) :
    ∃ m', loadBytes m addr program = .ok m' ∧ ∀ a, Memory.read m' a =
      if a < addr then Memory.read m a else program.getD (a - addr) (Memory.read m a) := by
  induction program generalizing addr m with
  | nil => exact ⟨m, rfl, fun a => by simp⟩
  | cons b rest ih =>
    rw [List.length_cons] at h
    obtain ⟨m', hload, hread⟩ := ih (addr := addr + 1) (by omega) (Memory.write m addr b)
    refine ⟨m', (loadBytes_cons_of_le (by omega) m b rest).trans hload, fun a => ?_⟩
    rw [hread a]
    rcases Nat.lt_trichotomy a addr with hlt | rfl | hgt
    · rw [if_pos (by omega), if_pos hlt, Memory.read_write_of_ne hlt.ne]
    · rw [if_pos (by omega), if_neg (by omega), Memory.read_write_same, Nat.sub_self, List.getD_cons_zero]
    · rw [if_neg (by omega), if_neg (by omega), Memory.read_write_of_ne hgt.ne',
        show a - addr = a - (addr + 1) + 1 by omega, List.getD_cons_succ]

/-- Bytes that reach beyond the top of memory fail at the first address outside it. -/
theorem loadBytes_of_overruns {program : List Byte} {addr : Nat} (haddr : addr ≤ 256)
    (h : 256 < addr + program.length) (m : Memory) : loadBytes m addr program = .error 256 := by
  induction program generalizing addr m with
  | nil => rw [List.length_nil] at h; omega
  | cons b rest ih =>
    rw [List.length_cons] at h
    rcases haddr.lt_or_eq with hlt | rfl
    · rw [loadBytes_cons_of_le (by omega)]
      exact ih (by omega) (by omega) _
    · rw [loadBytes, memWrite_of_gt (by omega)]

/-- Settles O16: the loader's writes from address 0 into the empty memory of reset. -/
theorem launchLoadsProgram : Obligations.LaunchLoadsProgram := by
  refine fun program => ⟨fun hfits => ?_, fun hlong => ?_⟩
  · obtain ⟨m, hload, hread⟩ := loadBytes_of_fits (addr := 0) (by omega : 0 + program.length ≤ 256) State.reset.mem
    refine ⟨State.reset.setMem m, by rw [State.launch, State.load, hload], rfl, fun addr => ?_⟩
    rw [cell, State.setMem_mem, hread addr, if_neg (Nat.not_lt_zero addr)]
    rfl
  · rw [State.launch, State.load, loadBytes_of_overruns (by omega) (by omega)]

/-! ### Fetching an instruction of one or two bytes -/

/-- The fetch of an opcode byte without operands, whatever its row builds (40_fetch_decode_execute.md R102). -/
theorem fetchedF0_of_row {op : Byte} {ext : Bool} {i : Instr}
    (hrow : opcodeRow? .ls8Core op = some ⟨op, ext, fun _ _ => i⟩) (hcount : operandCount op = 0) : FetchedF0 op i := by
  intro s hrun hop
  rw [opcodeAtPc, cell] at hop
  have hfetch := fetch_eq .ls8Core s
  simp only [hop, hrow, hcount] at hfetch
  exact stepWith_of_fetch_instr hrun hfetch

/-- The fetch of an opcode byte with one operand byte, whatever its row builds (R103). -/
theorem fetchedF1_of_row {op : Byte} {ext : Bool} {mk : Byte → Instr}
    (hrow : opcodeRow? .ls8Core op = some ⟨op, ext, fun a _ => mk a⟩) (hcount : operandCount op = 1) :
    FetchedF1 op mk := by
  intro s hrun hop
  rw [opcodeAtPc, cell] at hop
  have hfetch := fetch_eq .ls8Core s
  simp only [hop, hrow, hcount] at hfetch
  rw [step_eq]
  refine ⟨fun hfit => ?_, fun htop => ?_⟩
  · rw [loadByte_of_le (by omega)] at hfetch
    exact stepWith_of_fetch_instr hrun hfetch
  · rcases fetch_cases (c := .ls8Core) rfl s with ⟨hnone, -⟩ | ⟨-, hf⟩ | ⟨i, -, hi, hfit, -, -⟩
    · rw [hop, hrow] at hnone; cases hnone
    · exact stepWith_of_fetch_error hrun hf
    · rw [← operandCount_opcode, hi, hop, hcount] at hfit
      omega

theorem fetchedF0_hlt : FetchedF0 0x01 .hlt := fetchedF0_of_row rfl rfl
theorem fetchedF1_push : FetchedF1 0x45 .push := fetchedF1_of_row rfl rfl
theorem fetchedF1_call : FetchedF1 0x50 .call := fetchedF1_of_row rfl rfl

/-! ### The one effect of PUSH and CALL: a byte on the stack (44_stack.md R150) -/

/-- The state with the stack pointer decremented. -/
def State.decSp (s : State) : State := s.setReg spIndex (s.reg 7 - 1)

/-- The state with `v` pushed, the pc unchanged. -/
def State.pushed (s : State) (v : Byte) : State := s.decSp.setMem (Memory.write s.mem ((s.reg 7).toNat - 1) v)

theorem State.decSp_reg (s : State) (r : Fin 8) : s.decSp.reg r = if r = 7 then s.reg 7 - 1 else s.reg r := by
  rw [State.decSp, State.reg_setReg]
  exact if_congr eq_comm rfl rfl

@[simp] theorem State.pushed_reg (s : State) (v : Byte) (r : Fin 8) : (s.pushed v).reg r = s.decSp.reg r := rfl
@[simp] theorem State.pushed_run (s : State) (v : Byte) : (s.pushed v).run = s.run := rfl
@[simp] theorem State.pushed_err (s : State) (v : Byte) : (s.pushed v).err = s.err := rfl
@[simp] theorem State.pushed_output (s : State) (v : Byte) : (s.pushed v).output = s.output := rfl

theorem cell_pushed_same (s : State) (v : Byte) : cell (s.pushed v) ((s.reg 7).toNat - 1) = v :=
  Memory.read_write_same _ _ _

/-- A nonzero stack pointer, decremented, is the address a push stores to. -/
theorem toNat_sub_one_of_ne_zero {v : Byte} (h : v ≠ 0) : (v - 1).toNat = v.toNat - 1 := by
  bv_omega

theorem ne_zero_of_toNat_pos {v : Byte} (h : 0 < v.toNat) : v ≠ 0 := by
  rintro rfl; cases h

theorem pushAddress_of_ne {s : State} (h : s.reg 7 ≠ 0) : pushAddress s = .ok ((s.reg 7).toNat - 1) :=
  if_neg fun h0 => h (BitVec.eq_of_toNat_eq h0)

/-- Writing the push address to the stack pointer decrements it. -/
theorem setReg_pushAddress {s : State} (h : s.reg 7 ≠ 0) :
    s.setReg spIndex (BitVec.ofNat 8 ((s.reg 7).toNat - 1)) = s.decSp := by
  rw [State.decSp, ← toNat_sub_one_of_ne_zero h, BitVec.ofNat_toNat, BitVec.setWidth_eq]

/-- The store of a push, after the stack pointer is decremented. -/
theorem storeByte_decSp (s : State) (v : Nat) :
    storeByte ((s.reg 7).toNat - 1) v s.decSp = .ok (s.pushed (BitVec.ofNat 8 v)) :=
  storeByte_of_le (by omega) v s.decSp

/-- PUSH of a register, where the stack pointer is not 0: its byte after the decrement is pushed (R151). -/
theorem exec_push_regByte {s : State} (hsp : s.reg 7 ≠ 0) (r : Fin 8) :
    exec (.push (regByte r)) s = complete 1 s (.ok (s.pushed (s.decSp.reg r), .advance)) := by
  simp only [exec, execPush, pushAddress_of_ne hsp, bind, Except.bind, setReg_pushAddress hsp, readReg_regByte,
    storeByte_decSp, BitVec.ofNat_toNat, BitVec.setWidth_eq]

/-- CALL of a register, where the stack pointer is not 0: the return address is pushed, the target is read after the
decrement (45_control_transfer.md R161). -/
theorem exec_call_regByte {s : State} (hsp : s.reg 7 ≠ 0) (a : Fin 8) :
    exec (.call (regByte a)) s =
      complete 1 s (.ok (s.pushed (BitVec.ofNat 8 (defaultAdvance 1 s)), .target (s.decSp.reg a))) := by
  simp only [exec, execCall, pushAddress_of_ne hsp, bind, Except.bind, setReg_pushAddress hsp, storeByte_decSp,
    readReg_regByte, State.pushed_reg]

/-! ### A stored byte is the next opcode (20_memory.md R63) -/

/-- The byte pushed is the opcode where the pc moves to its cell. -/
theorem opcodeAtPc_pushed {s : State} {pc : Byte} (hpc : pc.toNat = (s.reg 7).toNat - 1) (v : Byte) :
    opcodeAtPc ((s.pushed v).setPc pc) = v := by
  rw [opcodeAtPc, State.setPc_pc, hpc]
  exact cell_pushed_same s v

/-- One step of a PUSH with the stack pointer three above the pc: it stores right after itself. -/
theorem step_push_after_itself {s : State} {r : Fin 8} (hrun : s.run = .running) (hop : opcodeAtPc s = 0x45)
    (hoperand : cell s (s.pc.toNat + 1) = regByte r) (hsp : (s.reg 7).toNat = s.pc.toNat + 3) :
    step s = .next ((s.pushed (s.decSp.reg r)).setPc (s.reg 7 - 1)) := by
  have hne : s.reg 7 ≠ 0 := ne_zero_of_toNat_pos (by omega)
  have hnext : BitVec.ofNat 8 (s.pc.toNat + 1 + 1) = s.reg 7 - 1 :=
    BitVec.eq_of_toNat_eq (by rw [toNat_sub_one_of_ne_zero hne, BitVec.toNat_ofNat]; omega)
  rw [(fetchedF1_push s hrun hop).1 (by omega), hoperand, exec_push_regByte hne, complete_advance_fits (by omega), hnext]

/-- One step of a CALL to the cell it stores to. -/
theorem step_call_to_pushed {s : State} {a : Fin 8} (hrun : s.run = .running) (hop : opcodeAtPc s = 0x50)
    (hfit : s.pc.toNat ≤ 254) (hoperand : cell s (s.pc.toNat + 1) = regByte a) (hsp : s.reg 7 ≠ 0) :
    step s = .next ((s.pushed (BitVec.ofNat 8 (s.pc.toNat + 2))).setPc (s.decSp.reg a)) := by
  rw [(fetchedF1_call s hrun hop).1 hfit, hoperand, exec_call_regByte hsp, complete_target]
  rfl

/-- The target of a CALL through register 7, or through a register that holds that address, is the cell it stores to. -/
theorem decSp_reg_toNat {s : State} {a : Fin 8} (hsp : s.reg 7 ≠ 0)
    (ha : a ≠ 7 → (s.reg a).toNat = (s.reg 7).toNat - 1) : (s.decSp.reg a).toNat = (s.reg 7).toNat - 1 := by
  rw [State.decSp_reg]
  split
  next => exact toNat_sub_one_of_ne_zero hsp
  next hne => exact ha hne

/-- Settles O54: after the PUSH, and after the CALL, the pc is at the cell just stored to. -/
theorem storedByteIsNextOpcode : Obligations.StoredByteIsNextOpcode := by
  constructor
  · intro s r hrun hop hoperand hsp
    have hpc : (s.reg 7 - 1).toNat = (s.reg 7).toNat - 1 :=
      toNat_sub_one_of_ne_zero (ne_zero_of_toNat_pos (by omega))
    refine ⟨_, step_push_after_itself hrun hop hoperand hsp, hrun, by rw [State.setPc_pc, hpc, hsp]; rfl, ?_⟩
    rw [opcodeAtPc_pushed hpc, State.decSp_reg]
  · intro s a hrun hop hfit hoperand hsp ha
    have hpc : (s.decSp.reg a).toNat = (s.reg 7).toNat - 1 := decSp_reg_toNat hsp ha
    refine ⟨_, step_call_to_pushed hrun hop hfit hoperand hsp, hrun, hpc, ?_⟩
    rw [opcodeAtPc_pushed hpc, BitVec.toNat_ofNat]

/-- HLT changes no data. -/
theorem exec_hlt_sameData {s t : State} (h : exec .hlt s = .next t) : SameData s t := by
  rcases exec_data h with hdata | ⟨s', rfl, hdata⟩ <;> exact hdata

/-- Settles O52: the PUSH's step leaves the pc at an HLT, which the second step runs. -/
theorem pushedHltRunsNext : Obligations.PushedHltRunsNext := by
  intro s r hrun hr _ hop hoperand hv hsp
  have hstep := step_push_after_itself hrun hop hoperand hsp
  rw [State.decSp_reg, if_neg hr, hv] at hstep
  have hpc : (s.reg 7 - 1).toNat = (s.reg 7).toNat - 1 :=
    toNat_sub_one_of_ne_zero (ne_zero_of_toNat_pos (by omega))
  obtain ⟨t, hexec⟩ := exec_next .hlt ((s.pushed 0x01).setPc (s.reg 7 - 1))
  have hhlt : step ((s.pushed 0x01).setPc (s.reg 7 - 1)) = .next t :=
    (fetchedF0_hlt ((s.pushed 0x01).setPc _) hrun (opcodeAtPc_pushed hpc 0x01)).trans hexec
  obtain ⟨hhalted, herr, -⟩ := exec_hlt_status hexec
  obtain ⟨-, -, hmem, hout⟩ := exec_hlt_sameData hexec
  refine ⟨t, by rw [steps_succ hstep, steps_succ hhlt, steps], hhalted, herr, hout, ?_⟩
  rw [memoryKept_of_mem_eq hmem, show s.pc.toNat + 2 = (s.reg 7).toNat - 1 by omega]
  exact cell_pushed_same s 0x01

end Sys2Proof.Machine
end

section
/-! PROOFS. The decoder against the encoder (30_encoding.md R80 to R88), and the opcode bytes a configuration does not
recognise (R86, R192, decisions D1 and D9). Both rest on the opcode map, said once: `opcodeRow?_eq`. -/

namespace Sys2Proof
open Sys2Proof.Stated

/-! ### The opcode map -/

theorem map_opcode_baseOpcodes : baseOpcodes.map OpcodeRow.opcode = baseBytes := rfl

theorem map_opcode_extensionOpcodes : extensionOpcodes.map OpcodeRow.opcode = extensionBytes := rfl

theorem needsExt_of_mem_baseOpcodes : ∀ row ∈ baseOpcodes, row.needsExt = false := by decide

theorem needsExt_of_mem_extensionOpcodes : ∀ row ∈ extensionOpcodes, row.needsExt = true := by decide

/-- The row of a byte in a list of rows. -/
def rowOf? (rows : List OpcodeRow) (ir : Byte) : Option OpcodeRow := rows.find? fun row => row.opcode == ir

theorem rowOf?_eq_none_iff {rows : List OpcodeRow} {ir : Byte} :
    rowOf? rows ir = none ↔ ir ∉ rows.map OpcodeRow.opcode := by
  simp [rowOf?]

/-- The verdict on a byte: its row in the base set, or, with `ALU_EXT` only, its row in the extension set (R84 to R86). -/
theorem opcodeRow?_eq (c : Config) (ir : Byte) :
    opcodeRow? c ir = (rowOf? baseOpcodes ir).or (if c.aluExt then rowOf? extensionOpcodes ir else none) := by
  rw [opcodeRow?, opcodeTable, List.find?_append]
  congr 1
  · exact List.find?_congr fun row hrow => by simp [needsExt_of_mem_baseOpcodes row hrow]
  · split
    next hext => simp [hext, rowOf?]
    next hext =>
      refine List.find?_eq_none.2 fun row hrow => ?_
      simp [needsExt_of_mem_extensionOpcodes row hrow, hext]

/-- The unrecognised bytes of a configuration (R86). -/
theorem opcodeRow?_eq_none_iff {c : Config} {ir : Byte} :
    opcodeRow? c ir = none ↔ ir ∉ baseBytes ∧ (c.aluExt = true → ir ∉ extensionBytes) := by
  rw [opcodeRow?_eq, Option.or_eq_none_iff, rowOf?_eq_none_iff, map_opcode_baseOpcodes, ite_eq_right_iff,
    rowOf?_eq_none_iff, map_opcode_extensionOpcodes]

/-- The verdict on a base byte does not look at the configuration. -/
theorem opcodeRow?_of_mem_baseBytes {ir : Byte} (h : ir ∈ baseBytes) (c : Config) :
    opcodeRow? c ir = rowOf? baseOpcodes ir := by
  have hsome : rowOf? baseOpcodes ir ≠ none := fun hnone => rowOf?_eq_none_iff.1 hnone h
  obtain ⟨row, hrow⟩ := Option.ne_none_iff_exists'.1 hsome
  rw [opcodeRow?_eq, hrow, Option.some_or]

/-- A recognised byte asks for at most two operand bytes (R80, R87). -/
theorem operandCount_le_of_row {c : Config} {op : Byte} {row : OpcodeRow} (h : opcodeRow? c op = some row) :
    operandCount op ≤ 2 := by
  obtain ⟨hmem, hop, hext⟩ := opcodeRow?_some h
  obtain ⟨hbuild, -, -⟩ := Machine.build_opcode hmem hext 0 0
  rw [hop, ← hbuild, operandCount_opcode]
  exact operands_length_le _

/-! ### Decoding a list of bytes -/

/-- A recognised byte followed by its operand bytes decodes to what its row builds of them. -/
theorem decode_of_row {c : Config} {op : Byte} {row : OpcodeRow} {ops : List Byte} (hrow : opcodeRow? c op = some row)
    (hcount : operandCount op = ops.length) (rest : List Byte) :
    decode c (op :: (ops ++ rest)) = .ok (.instr (row.build (ops.getD 0 0) (ops.getD 1 0)), rest) := by
  have hle : ops.length ≤ 2 := hcount ▸ operandCount_le_of_row hrow
  simp only [decode, decodeFrom, listByte, List.getElem?_cons_zero, bind, Except.bind, hrow, hcount, List.headD_cons]
  match ops with
  | [] => rfl
  | [_] => rfl
  | [_, _] => rfl
  | _ :: _ :: _ :: _ => simp only [List.length_cons] at hle; omega

/-- A recognised byte followed by too few bytes does not decode. -/
theorem decode_of_row_short {c : Config} {op : Byte} {row : OpcodeRow} {tail : List Byte}
    (hrow : opcodeRow? c op = some row) (hshort : tail.length < operandCount op) :
    decode c (op :: tail) = .error (.missingOperand (tail.length + 1)) := by
  have hle := operandCount_le_of_row hrow
  match tail with
  | [] =>
    have hone : 1 ≤ operandCount op := hshort
    simp [decode, decodeFrom, listByte, bind, Except.bind, hrow, hone]
  | [a] =>
    have htwo : operandCount op = 2 := hle.antisymm hshort
    simp [decode, decodeFrom, listByte, bind, Except.bind, hrow, htwo]
  | _ :: _ :: _ => simp only [List.length_cons] at hshort; omega

/-- An unrecognised byte decodes to no instruction. -/
theorem decode_of_no_row {c : Config} {op : Byte} (hrow : opcodeRow? c op = none) (tail : List Byte) (i : Instr)
    (rest : List Byte) : decode c (op :: tail) ≠ .ok (.instr i, rest) := by
  simp only [decode, decodeFrom, listByte, List.getElem?_cons_zero, bind, Except.bind, hrow]
  cases c.nopZero && op == 0 <;> nofun

/-- What decodes to an instruction: a recognised byte and its operand bytes, of which the row builds the instruction. -/
theorem decode_instr_cases {c : Config} {bytes rest : List Byte} {i : Instr} (h : decode c bytes = .ok (.instr i, rest)) :
    ∃ op ops row, bytes = op :: (ops ++ rest) ∧ opcodeRow? c op = some row ∧ operandCount op = ops.length ∧
      i = row.build (ops.getD 0 0) (ops.getD 1 0) := by
  match bytes with
  | [] => cases h
  | op :: tail =>
    cases hrow : opcodeRow? c op with
    | none => exact absurd h (decode_of_no_row hrow tail i rest)
    | some row =>
      rcases Nat.lt_or_ge tail.length (operandCount op) with hshort | hfits
      · cases (decode_of_row_short hrow hshort).symm.trans h
      · have hcount : operandCount op = (tail.take (operandCount op)).length := (List.length_take_of_le hfits).symm
        have hdecode := decode_of_row hrow hcount (tail.drop (operandCount op))
        rw [List.take_append_drop, h] at hdecode
        cases hdecode
        exact ⟨op, _, row, by rw [List.take_append_drop], hrow, hcount, rfl⟩

/-- A list of at most two bytes is what its first two bytes, padded, give back. -/
theorem take_getD_of_length_le {ops : List Byte} (h : ops.length ≤ 2) :
    [ops.getD 0 0, ops.getD 1 0].take ops.length = ops := by
  match ops with
  | [] => rfl
  | [_] => rfl
  | [_, _] => rfl
  | _ :: _ :: _ :: _ => simp only [List.length_cons] at h; omega

/-- Settles O1: the instruction's byte has a row that builds the instruction from its operands, which the byte counts. -/
theorem decodeInvertsEncode : Obligations.DecodeInvertsEncode := by
  intro c i rest hwf
  obtain ⟨row, hrow, hbuild⟩ := opcodeRow?_opcode hwf
  have hdecode := decode_of_row hrow (operandCount_opcode i) rest
  rwa [hbuild] at hdecode

/-- Settles O2: the row the decoder found is of the instruction it built, byte, operands and configuration. -/
theorem decodedBytesAreTheEncoding : Obligations.DecodedBytesAreTheEncoding := by
  intro c bytes rest i h
  obtain ⟨op, ops, row, rfl, hrow, hcount, rfl⟩ := decode_instr_cases h
  obtain ⟨hmem, hop, hext⟩ := opcodeRow?_some hrow
  obtain ⟨hopcode, hwf, hoperands⟩ := Machine.build_opcode hmem hext (ops.getD 0 0) (ops.getD 1 0)
  have hle : ops.length ≤ 2 := hcount ▸ operandCount_le_of_row hrow
  rw [← hop, hcount, take_getD_of_length_le hle] at hoperands
  refine ⟨?_, hwf⟩
  rw [encode, hopcode, hoperands, hop, List.cons_append]

/-- Settles O3: each word is the encoding of its instruction, with nothing after it. -/
theorem specWordsDecode : Obligations.SpecWordsDecode :=
  ⟨decodeInvertsEncode .ls8Core (.ldi 0 8) [] rfl, decodeInvertsEncode .ls8Core (.add 0 1) [] rfl,
    decodeInvertsEncode .ls8Core (.not 2) [] rfl, decodeInvertsEncode .ls8Core (.push 7) [] rfl,
    decodeInvertsEncode .ls8Core (.jeq 255) [] rfl, decodeInvertsEncode .ls8Core .ret [] rfl⟩

end Sys2Proof

namespace Sys2Proof.Machine
open Sys2Proof.Stated

/-! ### A step on an unrecognised opcode byte -/

/-- An unrecognised byte is the fatal error UnknownInstruction (40_fetch_decode_execute.md R102). -/
theorem stepWith_of_no_row {c : Config} {s : State} (hnop : c.nopZero = false) (hrun : s.run = .running)
    (hrow : opcodeRow? c (opcodeAtPc s) = none) :
    stepWith c s = .next (failed s .unknownInstruction (opcodeAtPc s).toNat) := by
  rw [opcodeAtPc, cell] at hrow
  have hfetch := fetch_eq c s
  simp only [hrow, hnop] at hfetch
  exact stepWith_of_fetch_error hrun hfetch

/-- Settles O4: a byte in neither list has no row. -/
theorem unrecognisedOpcodeFails : Obligations.UnrecognisedOpcodeFails :=
  fun _ hrun hbase hext => stepWith_of_no_row rfl hrun (opcodeRow?_eq_none_iff.2 ⟨hbase, fun _ => hext⟩)

/-- No byte is in both sets. -/
theorem not_mem_baseBytes_of_mem_extensionBytes : ∀ ir ∈ extensionBytes, ir ∉ baseBytes := by decide

/-- A step depends on the configuration through `NOP_ZERO` and the verdict on the opcode byte only. -/
theorem stepWith_congr {c c' : Config} {s : State} (hnop : c.nopZero = c'.nopZero)
    (hrow : opcodeRow? c (opcodeAtPc s) = opcodeRow? c' (opcodeAtPc s)) : stepWith c s = stepWith c' s := by
  rw [opcodeAtPc, cell] at hrow
  have hfetch : fetch c s = fetch c' s := by rw [fetch_eq, fetch_eq, hrow, hnop]
  rw [stepWith, stepWith, hfetch]

/-- Settles O5: without `ALU_EXT` an extension byte has no row, and a base byte has the row it has with it. -/
theorem baseConfigurationLacksExtension : Obligations.BaseConfigurationLacksExtension := by
  refine fun s hrun => ⟨fun hext => ?_, fun hbase => ?_⟩
  · exact stepWith_of_no_row rfl hrun
      (opcodeRow?_eq_none_iff.2 ⟨not_mem_baseBytes_of_mem_extensionBytes _ hext, nofun⟩)
  · exact stepWith_congr rfl ((opcodeRow?_of_mem_baseBytes hbase _).trans (opcodeRow?_of_mem_baseBytes hbase _).symm)

/-! ### The no-op of `NOP_ZERO` (92_eei_decisions.md D9) -/

/-- 0x00 is in no configuration's map. -/
theorem opcodeRow?_zero (c : Config) : opcodeRow? c 0x00 = none :=
  opcodeRow?_eq_none_iff.2 ⟨by decide, fun _ => by decide⟩

/-- With `NOP_ZERO` the byte 0x00, which has no row, is the no-op. -/
theorem stepWith_of_zero {c : Config} {s : State} (hnop : c.nopZero = true) (hrun : s.run = .running)
    (hop : opcodeAtPc s = 0x00) : stepWith c s = execNopZero s := by
  rw [opcodeAtPc, cell] at hop
  have hfetch := fetch_eq c s
  simp only [hop, opcodeRow?_zero, hnop] at hfetch
  exact stepWith_of_fetch_nopZero hrun hfetch

/-- Settles O6: the no-op is a completion without effect, which fits or overruns. -/
theorem nopZeroOnlyAdvances : Obligations.NopZeroOnlyAdvances := by
  refine fun ext s hrun hop => ⟨fun hfit => ?_, fun htop => ?_⟩ <;> rw [stepWith_of_zero rfl hrun hop, execNopZero]
  · exact complete_advance_fits (by omega)
  · rw [complete_advance_overruns (by omega), htop]
    rfl

end Sys2Proof.Machine
end

section
/-! PROOFS. What the next step depends on (40_fetch_decode_execute.md R112): two cores in agreement stay in agreement, as every
operation reads only what they agree on. Said as one relation, `InStep`, that each operation and the commit preserve. -/

namespace Sys2Proof.Machine
open Sys2Proof.Stated

/-! ### Two cores in step -/

/-- From the states `s` and `t` two cores have come to `s'` and `t'`, which agree, and have emitted the same bytes. -/
def InStep (s t s' t' : State) : Prop :=
  s'.agrees t' ∧ ∃ emitted : List Byte, s'.output = s.output ++ emitted ∧ t'.output = t.output ++ emitted

section
variable {s t s' t' : State}

theorem InStep.agrees (h : InStep s t s' t') : s'.agrees t' := h.1

theorem InStep.refl (h : s.agrees t) : InStep s t s t :=
  ⟨h, [], (List.append_nil _).symm, (List.append_nil _).symm⟩

theorem InStep.trans {s'' t'' : State} (h : InStep s t s' t') (h' : InStep s' t' s'' t'') : InStep s t s'' t'' := by
  obtain ⟨-, emitted, hs, ht⟩ := h
  obtain ⟨hagrees, emitted', hs', ht'⟩ := h'
  exact ⟨hagrees, emitted ++ emitted', by rw [hs', hs, List.append_assoc], by rw [ht', ht, List.append_assoc]⟩

theorem InStep.setReg (h : InStep s t s' t') (r : Fin 8) (v : Byte) : InStep s t (s'.setReg r v) (t'.setReg r v) := by
  obtain ⟨⟨hregs, hrest⟩, hout⟩ := h
  exact ⟨⟨by simp only [State.setReg_regs, hregs], hrest⟩, hout⟩

theorem InStep.setPc (h : InStep s t s' t') (v : Byte) : InStep s t (s'.setPc v) (t'.setPc v) := by
  obtain ⟨⟨hregs, -, hrest⟩, hout⟩ := h
  exact ⟨⟨hregs, rfl, hrest⟩, hout⟩

theorem InStep.setFl (h : InStep s t s' t') (v : Byte) : InStep s t (s'.setFl v) (t'.setFl v) := by
  obtain ⟨⟨hregs, hpc, -, hrest⟩, hout⟩ := h
  exact ⟨⟨hregs, hpc, rfl, hrest⟩, hout⟩

theorem InStep.setMem (h : InStep s t s' t') (m : Memory) : InStep s t (s'.setMem m) (t'.setMem m) := by
  obtain ⟨⟨hregs, hpc, hfl, -, hrun⟩, hout⟩ := h
  exact ⟨⟨hregs, hpc, hfl, rfl, hrun⟩, hout⟩

theorem InStep.emit (h : InStep s t s' t') (v : Byte) : InStep s t (s'.emit v) (t'.emit v) :=
  h.trans ⟨h.agrees, [v], rfl, rfl⟩

theorem InStep.halt (h : InStep s t s' t') : InStep s t s'.halt t'.halt := by
  obtain ⟨⟨hregs, hpc, hfl, hmem, -⟩, hout⟩ := h
  exact ⟨⟨hregs, hpc, hfl, hmem, rfl⟩, hout⟩

theorem InStep.takeFatal (h : InStep s t s' t') (e : FatalError) :
    InStep s t (takeFatal e s') (takeFatal e t') := by
  obtain ⟨⟨hregs, hpc, hfl, hmem, -⟩, hout⟩ := h
  exact ⟨⟨hregs, hpc, hfl, hmem, rfl⟩, hout⟩

/-- The same commit keeps the two cores in step. -/
theorem InStep.commit (h : InStep s t s' t') (npc : Nat) (next : NextPc) :
    InStep s t (commit npc next s') (commit npc next t') := by
  cases next with
  | target v => exact h.setPc v
  | halt =>
    rw [Machine.commit, Machine.commit]
    split
    · exact h.halt.setPc _
    · exact h.halt
  | advance =>
    rw [Machine.commit, Machine.commit]
    split
    · exact h.setPc _
    · exact h.takeFatal _

end

/-! ### Operations that end alike -/

/-- Two operations that raise the same error, or that both succeed, with results related by `R`. -/
def EndAlike {α β : Type} (R : α → β → Prop) : Except FatalError α → Except FatalError β → Prop
  | .ok x, .ok y => R x y
  | .error e, .error e' => e = e'
  | _, _ => False

theorem EndAlike.bind {α α' β β' : Type} {R : α → α' → Prop} {Q : β → β' → Prop} {x : Except FatalError α}
    {y : Except FatalError α'} {f : α → Except FatalError β} {g : α' → Except FatalError β'} (h : EndAlike R x y)
    (hfg : ∀ a b, R a b → EndAlike Q (f a) (g b)) : EndAlike Q (x >>= f) (y >>= g) := by
  match x, y, h with
  | .ok a, .ok b, hab => exact hfg a b hab
  | .error _, .error _, he => exact he

/-- An operation and itself. -/
theorem endAlike_self {α : Type} (x : Except FatalError α) : EndAlike Eq x x := by
  cases x <;> rfl

section
variable {s t s' t' : State}

/-- A register read depends on the registers only (10_state.md R24). -/
theorem readReg_endAlike (h : InStep s t s' t') (a : Byte) : EndAlike Eq (readReg a s') (readReg a t') := by
  obtain ⟨⟨hregs, -⟩, -⟩ := h
  have hread : readReg a s' = readReg a t' := by simp only [readReg, State.reg, hregs]
  exact hread ▸ endAlike_self _

theorem writeReg_endAlike (h : InStep s t s' t') (a v : Byte) :
    EndAlike (InStep s t) (writeReg a v s') (writeReg a v t') := by
  rw [writeReg, writeReg]
  split
  · exact h.setReg _ v
  · rfl

/-- The stack pointer is one of the registers. -/
theorem InStep.sp_eq (h : InStep s t s' t') : s'.sp = t'.sp := by
  obtain ⟨⟨hregs, -⟩, -⟩ := h
  rw [State.sp, State.sp, State.reg, State.reg, hregs]

theorem pushAddress_endAlike (h : InStep s t s' t') : EndAlike Eq (pushAddress s') (pushAddress t') := by
  rw [pushAddress, pushAddress, h.sp_eq]
  exact endAlike_self _

theorem popAddress_endAlike (h : InStep s t s' t') : EndAlike Eq (popAddress s') (popAddress t') := by
  rw [popAddress, popAddress, h.sp_eq]
  exact endAlike_self _

theorem incrementSp_endAlike (h : InStep s t s' t') : EndAlike (InStep s t) (incrementSp s') (incrementSp t') := by
  rw [incrementSp, incrementSp, h.sp_eq]
  split
  · rfl
  · exact h.setReg _ _

theorem loadByte_endAlike (h : InStep s t s' t') (addr : Nat) : EndAlike Eq (loadByte addr s') (loadByte addr t') := by
  obtain ⟨⟨-, -, -, hmem, -⟩, -⟩ := h
  rw [loadByte, loadByte, hmem]
  exact endAlike_self _

theorem storeByte_endAlike (h : InStep s t s' t') (addr v : Nat) :
    EndAlike (InStep s t) (storeByte addr v s') (storeByte addr v t') := by
  have hmem : s'.mem = t'.mem := by obtain ⟨⟨-, -, -, hmem, -⟩, -⟩ := h; exact hmem
  rw [storeByte, storeByte, hmem]
  exact (endAlike_self _).bind fun m _ hm => hm ▸ h.setMem m

/-! ### An instruction -/

/-- What two operations begun in `s` and `t` hand to the commit: effects in step, and the same wish for the pc. -/
def CommitAlike (s t : State) (x y : State × NextPc) : Prop := InStep s t x.1 y.1 ∧ x.2 = y.2

theorem complete_inStep (h : s.agrees t) (n : Nat) {x y : Except FatalError (State × NextPc)}
    (hxy : EndAlike (CommitAlike s t) x y) :
    ∃ s' t', complete n s x = .next s' ∧ complete n t y = .next t' ∧ InStep s t s' t' := by
  have hnpc : defaultAdvance n s = defaultAdvance n t := by
    obtain ⟨-, hpc, -⟩ := h
    rw [defaultAdvance, defaultAdvance, hpc]
  match x, y, hxy with
  | .ok (s₁, next), .ok (t₁, _), ⟨hstep, rfl⟩ => exact ⟨_, _, rfl, rfl, hnpc ▸ hstep.commit _ next⟩
  | .error e, .error _, rfl => exact ⟨_, _, rfl, rfl, (InStep.refl h).takeFatal e⟩

theorem aluBinary_endAlike (h : s.agrees t) (f : Byte → Byte → Except FatalError Byte) (a b : Byte) :
    EndAlike (CommitAlike s t) (aluBinary f a b s) (aluBinary f a b t) :=
  (readReg_endAlike (.refl h) a).bind fun va _ ha => (readReg_endAlike (.refl h) b).bind fun vb _ hb =>
    ha ▸ hb ▸ (endAlike_self (f va vb)).bind fun v _ hv => hv ▸ (writeReg_endAlike (.refl h) a v).bind
      fun _ _ hw => ⟨hw, rfl⟩

theorem jumpIf_endAlike (h : s.agrees t) (taken : Bool) (a : Byte) :
    EndAlike (CommitAlike s t) (jumpIf taken a s) (jumpIf taken a t) := by
  cases taken with
  | true => exact (readReg_endAlike (.refl h) a).bind fun _ _ hv => ⟨.refl h, hv ▸ rfl⟩
  | false => exact ⟨.refl h, rfl⟩

/-- An instruction begun in two agreeing states ends in two agreeing states, with the same output. -/
theorem exec_inStep (h : s.agrees t) (i : Instr) :
    ∃ s' t', exec i s = .next s' ∧ exec i t = .next t' ∧ InStep s t s' t' := by
  have h₀ : InStep s t s t := .refl h
  have hpc : s.pc = t.pc := by obtain ⟨-, hpc, -⟩ := h; exact hpc
  have hfl : s.fl = t.fl := by obtain ⟨-, -, hfl, -⟩ := h; exact hfl
  cases i with
  | hlt => exact complete_inStep h 0 (x := .ok (s, .halt)) (y := .ok (t, .halt)) ⟨h₀, rfl⟩
  | ldi a b => exact complete_inStep h 2 ((writeReg_endAlike h₀ a b).bind fun _ _ hw => ⟨hw, rfl⟩)
  | prn a => exact complete_inStep h 1 ((readReg_endAlike h₀ a).bind fun v _ hv => ⟨hv ▸ h₀.emit v, rfl⟩)
  | add a b | mul a b | sub a b | div a b | and a b | or a b | xor a b =>
    exact complete_inStep h 2 (aluBinary_endAlike h _ a b)
  | cmp a b => exact complete_inStep h 2 ((readReg_endAlike h₀ a).bind fun va _ ha =>
      (readReg_endAlike h₀ b).bind fun vb _ hb => ⟨ha ▸ hb ▸ h₀.setFl (compareFlags va vb), rfl⟩)
  | not a => exact complete_inStep h 1 ((readReg_endAlike h₀ a).bind fun va _ ha =>
      ha ▸ (writeReg_endAlike h₀ a (aluNot va)).bind fun _ _ hw => ⟨hw, rfl⟩)
  | push a => exact complete_inStep h 1 ((pushAddress_endAlike h₀).bind fun addr _ haddr =>
      haddr ▸ (readReg_endAlike (h₀.setReg spIndex _) a).bind fun v _ hv =>
        hv ▸ (storeByte_endAlike (h₀.setReg spIndex _) addr v.toNat).bind fun _ _ hs => ⟨hs, rfl⟩)
  | pop a => exact complete_inStep h 1 ((popAddress_endAlike h₀).bind fun addr _ haddr =>
      haddr ▸ (loadByte_endAlike h₀ addr).bind fun v _ hv => hv ▸ (writeReg_endAlike h₀ a v).bind fun _ _ hw =>
        (incrementSp_endAlike hw).bind fun _ _ hs => ⟨hs, rfl⟩)
  | call a =>
    have hnpc : defaultAdvance 1 s = defaultAdvance 1 t := by rw [defaultAdvance, defaultAdvance, hpc]
    exact complete_inStep h 1 ((pushAddress_endAlike h₀).bind fun addr _ haddr =>
      haddr ▸ hnpc ▸ (storeByte_endAlike (h₀.setReg spIndex _) addr (defaultAdvance 1 s)).bind fun _ _ hs =>
        (readReg_endAlike hs a).bind fun _ _ hv => ⟨hs, hv ▸ rfl⟩)
  | ret => exact complete_inStep h 0 ((popAddress_endAlike h₀).bind fun addr _ haddr =>
      haddr ▸ (loadByte_endAlike h₀ addr).bind fun _ _ hv => (incrementSp_endAlike h₀).bind
        fun _ _ hs => ⟨hs, hv ▸ rfl⟩)
  | jmp a => exact complete_inStep h 1 (jumpIf_endAlike h true a)
  | jeq a => exact complete_inStep h 1 (hfl ▸ jumpIf_endAlike h (flagE s.fl) a)
  | jne a => exact complete_inStep h 1 (hfl ▸ jumpIf_endAlike h (!flagE s.fl) a)

/-! ### A step, and any number of steps -/

/-- The fetch depends on the pc and the memory only (R102, R103). -/
theorem fetch_eq_of_agrees (h : s.agrees t) (c : Config) : fetch c s = fetch c t := by
  obtain ⟨-, hpc, -, hmem, -⟩ := h
  simp only [fetch, loadByte, hpc, hmem]

theorem step_inStep (h : s.agrees t) : ∃ s' t', step s = .next s' ∧ step t = .next t' ∧ InStep s t s' t' := by
  have hrun : s.run = t.run := by obtain ⟨-, -, -, -, hrun⟩ := h; exact hrun
  have hfetch := fetch_eq_of_agrees h .ls8Core
  rw [step_eq, step_eq]
  cases hs : s.run with
  | halted => exact ⟨s, t, stepWith_halted hs, stepWith_halted (hrun ▸ hs), .refl h⟩
  | running =>
    have ht : t.run = .running := hrun ▸ hs
    rcases fetch_cases (c := .ls8Core) rfl s with ⟨-, hf⟩ | ⟨-, hf⟩ | ⟨i, -, -, -, -, hf⟩
    · exact ⟨_, _, stepWith_of_fetch_error hs hf, stepWith_of_fetch_error ht (hfetch ▸ hf), (InStep.refl h).takeFatal _⟩
    · exact ⟨_, _, stepWith_of_fetch_error hs hf, stepWith_of_fetch_error ht (hfetch ▸ hf), (InStep.refl h).takeFatal _⟩
    · rw [stepWith_of_fetch_instr hs hf, stepWith_of_fetch_instr ht (hfetch ▸ hf)]
      exact exec_inStep h i

/-- However many steps two agreeing cores perform, they stay in step. -/
theorem steps_inStep (k : Nat) (h : s.agrees t) :
    ∃ s' t', steps k s = .next s' ∧ steps k t = .next t' ∧ InStep s t s' t' := by
  induction k generalizing s t with
  | zero => exact ⟨s, t, rfl, rfl, .refl h⟩
  | succ k ih =>
    obtain ⟨s₁, t₁, hs, ht, hfirst⟩ := step_inStep h
    obtain ⟨s', t', hs', ht', hrest⟩ := ih hfirst.agrees
    exact ⟨s', t', (steps_succ hs k).trans hs', (steps_succ ht k).trans ht', hfirst.trans hrest⟩

end

/-- Settles O12: agreement, with equal emissions, is kept by every number of steps. -/
theorem agreeingStatesBehaveAlike : Obligations.AgreeingStatesBehaveAlike := by
  intro k s t h
  obtain ⟨s', t', hs, ht, hagrees, emitted, hout, hout'⟩ := steps_inStep k h
  exact ⟨s', t', emitted, hs, ht, hagrees, hout, hout'⟩

end Sys2Proof.Machine
end

section
/-! PROOFS. The step (40_fetch_decode_execute.md R100 to R110): how it ends, what a fatal error leaves unchanged, and which
instruction the bytes at the pc make. -/

namespace Sys2Proof.Machine
open Sys2Proof.Stated

/-! ### How a step ends -/

/-- Settles O9: each of the steps is not performed. -/
theorem haltedCoreNeverMoves : Obligations.HaltedCoreNeverMoves := by
  intro k s hrun
  induction k with
  | zero => rfl
  | succ k ih => exact (steps_succ (stepWith_halted hrun) k).trans ih

/-- 0x01 is the opcode of HLT and of no other instruction. -/
theorem opcode_eq_hlt_iff {i : Instr} : i.opcode = 0x01 ↔ i = .hlt := by
  cases i <;> simp [Instr.opcode]

/-- An instruction run by a Running core without an error ends in one of the three ways of R100. -/
theorem exec_endings {i : Instr} {s t : State} (hrun : s.run = .running) (herr : s.err = none)
    (h : exec i s = .next t) :
    (i ≠ .hlt ∧ t.run = .running ∧ t.err = none) ∨ (i = .hlt ∧ t.run = .halted ∧ t.err = none) ∨
    (i ≠ .hlt ∧ t.run = .halted ∧ t.err.isSome) := by
  by_cases hi : i = .hlt
  · subst hi
    obtain ⟨hhalted, herr', -⟩ := exec_hlt_status h
    exact .inr (.inl ⟨rfl, hhalted, herr'.trans herr⟩)
  · rcases exec_statusKeptOrFailed hi h with ⟨hrun', herr', -⟩ | ⟨hhalted, hsome⟩
    · exact .inl ⟨hi, hrun'.trans hrun, herr'.trans herr⟩
    · exact .inr (.inr ⟨hi, hhalted, hsome⟩)

/-- Settles O10: a fetch that fails is not HLT's, which is recognised and has no operand; a fetched instruction ends in one
of the three ways. -/
theorem stepEndsInOneOfThreeWays : Obligations.StepEndsInOneOfThreeWays := by
  refine ⟨rfl, fun s hrun herr => ?_⟩
  obtain ⟨t, h⟩ := step_next s
  refine ⟨t, h, ?_⟩
  rcases step_cases h with ⟨hhalted, -⟩ | ⟨-, hrow, rfl⟩ | ⟨-, htop, rfl⟩ | ⟨-, i, hop, -, -, hexec⟩
  · cases hrun.symm.trans hhalted
  · have hop : opcodeAtPc s ≠ 0x01 := by
      intro hop
      have hrow : opcodeRow? .ls8Core (opcodeAtPc s) = none := hrow
      rw [hop] at hrow
      cases hrow
    exact .inr (.inr ⟨hop, rfl, rfl⟩)
  · have hop : opcodeAtPc s ≠ 0x01 := by
      intro hop
      have htop : 255 < s.pc.toNat + operandCount (opcodeAtPc s) := htop
      rw [hop] at htop
      exact absurd htop (Nat.not_lt.2 (pc_toNat_le s))
    exact .inr (.inr ⟨hop, rfl, rfl⟩)
  · rw [opcodeAtPc, cell, ← hop, ne_eq, opcode_eq_hlt_iff]
    exact exec_endings hrun herr hexec

/-! ### What a fatal error leaves unchanged -/

/-- No effect moves the pc: the commit does (R106). -/
theorem Effect.pc_eq {i : Instr} {s s' : State} (h : Effect i s s') : s'.pc = s.pc := by
  rcases h.shape with ⟨_, _, rfl⟩ | ⟨-, _, _, rfl⟩ | ⟨-, _, _, _, -, rfl⟩ <;> rfl

/-- A commit that ends in an error, in a state that had none, is the PC overrun (R107). -/
theorem commit_of_err {npc : Nat} {next : NextPc} {s : State} {k : ErrKind} (hs : s.err = none)
    (h : (commit npc next s).err = some k) : 255 < npc ∧ commit npc next s = takeFatal ⟨.outOfRange, npc⟩ s := by
  rcases commit_cases npc next s with ⟨-, -, hc⟩ | ⟨-, -, hc⟩ | ⟨v, -, hc⟩ | ⟨-, -, hc⟩ | ⟨-, hlt, hc⟩
  on_goal 5 => exact ⟨hlt, hc⟩
  all_goals rw [hc] at h; cases hs.symm.trans h

/-- An instruction that ends in a fatal error changes nothing but the status, or it is the PC overrun (R107, R108). -/
theorem exec_of_err {i : Instr} {s t : State} {k : ErrKind} (herr : s.err = none) (h : exec i s = .next t)
    (hk : t.err = some k) :
    t = failed s k t.errinfo ∨
    (255 < s.pc.toNat + 1 + i.operands.length ∧ t.run = .halted ∧ t.pc = s.pc ∧ k = .outOfRange ∧
      t.errinfo = s.pc.toNat + 1 + i.operands.length) := by
  rcases exec_cases h with ⟨e, -, rfl⟩ | ⟨s', next, heffect, -, rfl⟩
  · cases hk
    exact .inl rfl
  · obtain ⟨-, herr', -⟩ := heffect.status
    obtain ⟨hover, hcommit⟩ := commit_of_err (herr'.trans herr) hk
    rw [hcommit] at hk ⊢
    cases hk
    exact .inr ⟨hover, rfl, heffect.pc_eq, rfl, rfl⟩

/-- Settles O11: a fetch that fails changes only the status; an overrun of an instruction that was fetched ends at 255. -/
theorem fatalErrorIsAtomic : Obligations.FatalErrorIsAtomic := by
  intro s t k hrun herr h hk
  rcases step_cases h with ⟨hhalted, -⟩ | ⟨-, -, rfl⟩ | ⟨-, -, rfl⟩ | ⟨-, i, hop, hfit, -, hexec⟩
  · cases hrun.symm.trans hhalted
  · cases hk
    exact ⟨rfl, rfl, fun _ => rfl⟩
  · cases hk
    exact ⟨rfl, rfl, fun _ => rfl⟩
  · rcases exec_of_err herr hexec hk with ht | ⟨hover, hhalted, hpc, rfl, hinfo⟩
    · rw [ht]
      exact ⟨rfl, rfl, fun _ => rfl⟩
    · have hend : s.pc.toNat + 1 + i.operands.length = 256 := by omega
      have hcount : operandCount (opcodeAtPc s) = i.operands.length := by
        rw [opcodeAtPc, cell, ← hop, operandCount_opcode]
      exact ⟨hhalted, hpc, fun hne => absurd ⟨rfl, hinfo.trans hend, hcount ▸ hend⟩ hne⟩

/-! ### The instruction the bytes at the pc make -/

/-- Bits 7:6 of a byte, as a number (30_encoding.md R81). -/
theorem operandCount_eq_div (ir : Byte) : operandCount ir = ir.toNat / 64 := by
  rw [operandCount, BitVec.extractLsb'_toNat, Nat.shiftRight_eq_div_pow]
  omega

/-- The operand bytes of `i` lie in memory after the pc. -/
def OperandsFollowPc (s : State) (i : Instr) : Prop :=
  ∀ (k : Nat) (b : Byte), i.operands[k]? = some b → s.pc.toNat + 1 + k ≤ 255 ∧ cell s (s.pc.toNat + 1 + k) = b

section
variable {s : State} {i : Instr}

theorem OperandsFollowPc.fits (h : OperandsFollowPc s i) : s.pc.toNat + i.operands.length ≤ 255 := by
  rcases Nat.eq_zero_or_pos i.operands.length with hnil | hpos
  · rw [hnil]
    exact pc_toNat_le s
  · obtain ⟨hlast, -⟩ := h (i.operands.length - 1) _ (List.getElem?_eq_getElem (by omega))
    omega

/-- They are the first of the two bytes a fetch may read. -/
theorem OperandsFollowPc.operands_eq (h : OperandsFollowPc s i) :
    i.operands = [cell s (s.pc.toNat + 1), cell s (s.pc.toNat + 2)].take i.operands.length := by
  have hle := operands_length_le i
  refine List.ext_getElem (by simp; omega) fun k hk _ => ?_
  obtain ⟨-, hcell⟩ := h k _ (List.getElem?_eq_getElem hk)
  rw [← hcell, List.getElem_take]
  match k, hk with
  | 0, _ => rfl
  | 1, _ => rfl
  | _ + 2, hk => omega

/-- The byte and the operands of an instruction determine it (R80). -/
theorem eq_of_encode_eq {c : Config} {j : Instr} (hi : i.wellFormed c = true) (hj : j.wellFormed c = true)
    (h : encode i = encode j) : i = j := by
  have hdecode := decodeInvertsEncode c i [] hi
  rw [h, decodeInvertsEncode c j [] hj] at hdecode
  cases hdecode
  rfl

/-- The opcode byte of a well-formed instruction, at the pc, is recognised (R86). -/
theorem opcodeRow?_ne_none {c : Config} (hwf : i.wellFormed c = true) (hop : opcodeAtPc s = i.opcode) :
    opcodeRow? c (Memory.read s.mem s.pc.toNat) ≠ none := by
  obtain ⟨row, hrow, -⟩ := opcodeRow?_opcode hwf
  rw [← hop, opcodeAtPc, cell] at hrow
  rw [hrow]
  nofun

/-- A step whose opcode byte is that of a well-formed instruction runs it, if its operand bytes are in memory (R103). -/
theorem step_of_operandsFollowPc (hrun : s.run = .running) (hwf : i.wellFormed .ls8Core = true)
    (hop : opcodeAtPc s = i.opcode) (h : OperandsFollowPc s i) : step s = exec i s := by
  have hcount : operandCount (opcodeAtPc s) = i.operands.length := hop ▸ operandCount_opcode i
  rcases fetch_cases (c := .ls8Core) rfl s with ⟨hrow, -⟩ | ⟨htop, -⟩ | ⟨j, hjwf, hjop, -, hjops, hf⟩
  · exact absurd hrow (opcodeRow?_ne_none hwf hop)
  · have htop : 255 < s.pc.toNat + operandCount (opcodeAtPc s) := htop
    have hfits := h.fits
    omega
  · have hjop : j.opcode = i.opcode := hjop.trans hop
    have hlen : j.operands.length = i.operands.length := by
      rw [← operandCount_opcode, ← operandCount_opcode, hjop]
    have hops : j.operands = i.operands := by
      rw [hlen] at hjops
      exact hjops.trans h.operands_eq.symm
    have hji : j = i := eq_of_encode_eq hjwf hwf (by rw [encode, encode, hjop, hops])
    rw [step_eq, stepWith_of_fetch_instr hrun hf, hji]

/-- A step whose instruction does not lie in memory whole is OutOfRange(256) (R103). -/
theorem step_of_operands_beyond_top (hrun : s.run = .running) (hwf : i.wellFormed .ls8Core = true)
    (hop : opcodeAtPc s = i.opcode) (h : 255 < s.pc.toNat + i.operands.length) :
    step s = .next (failed s .outOfRange 256) := by
  rcases fetch_cases (c := .ls8Core) rfl s with ⟨hrow, -⟩ | ⟨-, hf⟩ | ⟨j, -, hjop, hfit, -, -⟩
  · exact absurd hrow (opcodeRow?_ne_none hwf hop)
  · exact stepWith_of_fetch_error hrun hf
  · have hjop : j.opcode = i.opcode := hjop.trans hop
    rw [← operandCount_opcode, hjop, operandCount_opcode] at hfit
    omega

end

/-- Settles O8: the byte counts the operands; they lie in memory, or one of them does not. -/
theorem operandBytesAreFetched : Obligations.OperandBytesAreFetched := by
  refine fun s i hrun hwf hop => ⟨?_, step_of_operandsFollowPc hrun hwf hop, fun htop => ?_⟩
  · rw [← operandCount_eq_div, hop, operandCount_opcode]
  · exact ⟨_, step_of_operands_beyond_top hrun hwf hop htop, rfl, rfl, rfl⟩

/-- A byte of the memory's end from `addr` on is the cell it comes from. -/
theorem cell_of_bytesFrom {s : State} {n addr k : Nat} {b : Byte} (h : (bytesFrom s.mem addr n)[k]? = some b) :
    addr + k ≤ 255 ∧ cell s (addr + k) = b := by
  induction n generalizing addr k with
  | zero => cases h
  | succ n ih =>
    rw [bytesFrom] at h
    split at h
    next hle =>
      cases k with
      | zero => exact ⟨hle, Option.some.inj h⟩
      | succ k =>
        rw [List.getElem?_cons_succ] at h
        rw [← Nat.add_assoc, Nat.add_right_comm]
        exact ih h
    next => cases h

/-- Settles O7: the bytes decoded are the instruction's encoding, so the opcode is at the pc and the operands follow it. -/
theorem stepRunsDecodedInstruction : Obligations.StepRunsDecodedInstruction := by
  intro s i rest hrun hdecode hwf
  obtain ⟨hbytes, -⟩ := decodedBytesAreTheEncoding _ _ _ _ hdecode
  rw [encode, List.cons_append] at hbytes
  obtain ⟨-, hop⟩ := cell_of_bytesFrom (s := s) (k := 0) (by rw [hbytes]; exact List.getElem?_cons_zero)
  refine step_of_operandsFollowPc hrun hwf hop fun k b hk => ?_
  rw [Nat.add_assoc, Nat.add_comm 1 k]
  refine cell_of_bytesFrom (k := k + 1) (n := 3) ?_
  rw [hbytes, List.getElem?_cons_succ]
  obtain ⟨hlt, -⟩ := List.getElem?_eq_some_iff.1 hk
  exact (List.getElem?_append_left hlt).trans hk

end Sys2Proof.Machine
end

section
/-! PROOFS. The instructions one by one, in the order of the table (41_system_and_data.md to 45_control_transfer.md). What
they share is said once: an operation that only advances completes or overruns, the two checks and the write-back of the
two-register ALU instructions, the stack pointer's checks, and the jump. -/

namespace Sys2Proof.Machine
open Sys2Proof.Stated

/-! ### An operation that advances -/

/-- An instruction whose operation succeeds with `s'` and no target completes with `s'`, or overruns with it (R106, R107). -/
theorem completesOrOverruns_of_exec {i : Instr} {n : Nat} {s s' : State} {E : State → Prop}
    (hexec : exec i s = complete n s (.ok (s', .advance))) (hpc : s'.pc = s.pc) (hE : E s') :
    CompletesOrOverruns i (n + 1) s E := by
  have hnpc : s.pc.toNat + (n + 1) = s.pc.toNat + 1 + n := by omega
  rw [CompletesOrOverruns, hnpc]
  refine ⟨fun hfit => ⟨s', hE, ?_⟩, fun hover => ⟨s', hE, ?_⟩⟩
  · rw [hexec, complete_advance_fits hfit, pastPc, hpc, hnpc]
    rfl
  · rw [hexec, complete_advance_overruns hover]
    rfl

/-! ### LDI and PRN -/

theorem exec_ldi_bad {a : Byte} (ha : 8 ≤ a.toNat) (b : Byte) (s : State) :
    exec (.ldi a b) s = .next (failed s .outOfRange a.toNat) := by
  simp only [exec, execLdi, writeReg_bad ha]
  rfl

theorem exec_ldi_regByte (a : Fin 8) (b : Byte) (s : State) :
    exec (.ldi (regByte a) b) s = complete 2 s (.ok (s.setReg a b, .advance)) := by
  simp only [exec, execLdi, writeReg_regByte]
  rfl

/-- Settles O26: the fetch, the index check, and the one write. -/
theorem ldiLoadsImmediate : Obligations.LdiLoadsImmediate :=
  ⟨fetchedF2_of_row rfl rfl, fun _ b s ha => exec_ldi_bad ha b s,
    fun a b s => completesOrOverruns_of_exec (exec_ldi_regByte a b s) rfl rfl⟩

theorem exec_prn_bad {a : Byte} (ha : 8 ≤ a.toNat) (s : State) :
    exec (.prn a) s = .next (failed s .outOfRange a.toNat) := by
  simp only [exec, execPrn, readReg_bad ha]
  rfl

theorem exec_prn_regByte (a : Fin 8) (s : State) :
    exec (.prn (regByte a)) s = complete 1 s (.ok (s.emit (s.reg a), .advance)) := by
  simp only [exec, execPrn, readReg_regByte]
  rfl

/-- Settles O27: the fetch, the index check, and the one output event. -/
theorem prnEmitsRegister : Obligations.PrnEmitsRegister :=
  ⟨fetchedF1_of_row rfl rfl, fun _ s ha => exec_prn_bad ha s,
    fun a s => completesOrOverruns_of_exec (exec_prn_regByte a s) rfl rfl⟩

/-! ### The frame of the two-register ALU instructions (42_alu.md R130) -/

section
variable {f : Byte → Byte → Except FatalError Byte}

theorem aluBinary_bad_a {a : Byte} (ha : 8 ≤ a.toNat) (b : Byte) (s : State) :
    aluBinary f a b s = .error ⟨.outOfRange, a.toNat⟩ := by
  rw [aluBinary, readReg_bad ha]
  rfl

theorem aluBinary_bad_b {b : Byte} (hb : 8 ≤ b.toNat) (a : Fin 8) (s : State) :
    aluBinary f (regByte a) b s = .error ⟨.outOfRange, b.toNat⟩ := by
  rw [aluBinary, readReg_regByte, readReg_bad hb]
  rfl

theorem aluBinary_of_ok {a b : Fin 8} {s : State} {v : Byte} (h : f (s.reg a) (s.reg b) = .ok v) :
    aluBinary f (regByte a) (regByte b) s = .ok (s.setReg a v, .advance) := by
  simp only [aluBinary, readReg_regByte, writeReg_regByte, bind, Except.bind, h]

theorem aluBinary_of_error {a b : Fin 8} {s : State} {e : FatalError} (h : f (s.reg a) (s.reg b) = .error e) :
    aluBinary f (regByte a) (regByte b) s = .error e := by
  simp only [aluBinary, readReg_regByte, bind, Except.bind, h]

/-- The instructions of this frame check their two indices in order (D15). -/
theorem checksTwoIndices_of_aluBinary {mk : Byte → Byte → Instr}
    (hexec : ∀ a b s, exec (mk a b) s = complete 2 s (aluBinary f a b s)) : ChecksTwoIndices mk := by
  refine ⟨fun a b s ha => ?_, fun a b s hb => ?_⟩ <;> rw [hexec]
  · rw [aluBinary_bad_a ha]
    rfl
  · rw [aluBinary_bad_b hb]
    rfl

end

/-- An instruction of this frame whose function `g` never raises. -/
theorem twoRegisterAlu_of_aluBinary {op : Byte} {ext : Bool} {mk : Byte → Byte → Instr} {g : Byte → Byte → Byte}
    {Result : Byte → Byte → Byte → Prop} (hrow : opcodeRow? .ls8Core op = some ⟨op, ext, mk⟩) (hcount : operandCount op = 2)
    (hexec : ∀ a b s, exec (mk a b) s = complete 2 s (aluBinary (fun va vb => .ok (g va vb)) a b s))
    (hresult : ∀ va vb, Result va vb (g va vb)) : TwoRegisterAlu op mk Result := by
  refine ⟨fetchedF2_of_row hrow hcount, checksTwoIndices_of_aluBinary hexec, fun a b s => ?_⟩
  have hok : exec (mk (regByte a) (regByte b)) s =
      complete 2 s (.ok (s.setReg a (g (s.reg a) (s.reg b)), .advance)) := by rw [hexec, aluBinary_of_ok rfl]
  exact completesOrOverruns_of_exec hok rfl ⟨_, hresult _ _, rfl⟩

/-! ### The functions of the ALU -/

theorem aluAdd_toNat (va vb : Byte) : (aluAdd va vb).toNat = (va.toNat + vb.toNat) % 256 := BitVec.toNat_ofNat _ _

theorem aluMul_toNat (va vb : Byte) : (aluMul va vb).toNat = (va.toNat * vb.toNat) % 256 := BitVec.toNat_ofNat _ _

theorem aluSub_toNat (va vb : Byte) : ((aluSub va vb).toNat : Int) = ((va.toNat : Int) - (vb.toNat : Int)) % 256 := by
  rw [aluSub, BitVec.toNat_ofInt]
  exact Int.toNat_of_nonneg (Int.emod_nonneg _ (by decide))

theorem aluAnd_getLsbD (va vb : Byte) (k : Nat) : (aluAnd va vb).getLsbD k = (va.getLsbD k && vb.getLsbD k) :=
  BitVec.getLsbD_and

theorem aluOr_getLsbD (va vb : Byte) (k : Nat) : (aluOr va vb).getLsbD k = (va.getLsbD k || vb.getLsbD k) :=
  BitVec.getLsbD_or

theorem aluXor_getLsbD (va vb : Byte) (k : Nat) : (aluXor va vb).getLsbD k = (va.getLsbD k != vb.getLsbD k) :=
  BitVec.getLsbD_xor

theorem aluNot_toNat (va : Byte) : (aluNot va).toNat = 255 - va.toNat := by
  rw [aluNot, BitVec.toNat_ofNat]
  omega

/-- 255 minus a byte is the byte with every bit inverted. -/
theorem aluNot_eq_not (va : Byte) : aluNot va = ~~~va :=
  BitVec.eq_of_toNat_eq (by rw [aluNot_toNat, BitVec.toNat_not])

theorem aluNot_getLsbD (va : Byte) {k : Nat} (hk : k < 8) : (aluNot va).getLsbD k = !va.getLsbD k := by
  rw [aluNot_eq_not, BitVec.getLsbD_not, decide_eq_true hk, Bool.true_and]

theorem aluDiv_of_eq_zero {vb : Byte} (h : vb = 0) (va : Byte) : aluDiv va vb = .error ⟨.divideByZero, va.toNat⟩ :=
  if_pos (congrArg BitVec.toNat h)

/-- The quotient, by the bounds that determine it. -/
theorem aluDiv_of_ne_zero {vb : Byte} (h : vb ≠ 0) (va : Byte) :
    ∃ v : Byte, aluDiv va vb = .ok v ∧ v.toNat * vb.toNat ≤ va.toNat ∧ va.toNat < (v.toNat + 1) * vb.toNat := by
  have hne : vb.toNat ≠ 0 := fun h0 => h (BitVec.eq_of_toNat_eq h0)
  have hv : (BitVec.ofNat 8 (va.toNat / vb.toNat)).toNat = va.toNat / vb.toNat := by
    rw [BitVec.toNat_ofNat]
    exact Nat.mod_eq_of_lt ((Nat.div_le_self _ _).trans_lt va.isLt)
  refine ⟨_, if_neg hne, ?_, ?_⟩ <;> rw [hv]
  · exact Nat.div_mul_le_self _ _
  · exact Nat.lt_mul_of_div_lt (Nat.lt_succ_self _) (Nat.pos_of_ne_zero hne)

/-! ### ADD, MUL, SUB, AND, OR, XOR, DIV, NOT -/

/-- Settles O28: the frame with `aluAdd`. -/
theorem addIsSumModulo256 : Obligations.AddIsSumModulo256 :=
  twoRegisterAlu_of_aluBinary rfl rfl (fun _ _ _ => rfl) aluAdd_toNat

/-- Settles O29: the frame with `aluMul`. -/
theorem mulIsProductModulo256 : Obligations.MulIsProductModulo256 :=
  twoRegisterAlu_of_aluBinary rfl rfl (fun _ _ _ => rfl) aluMul_toNat

/-- Settles O31: the frame with `aluSub`. -/
theorem subIsDifferenceModulo256 : Obligations.SubIsDifferenceModulo256 :=
  twoRegisterAlu_of_aluBinary rfl rfl (fun _ _ _ => rfl) aluSub_toNat

/-- Settles O33: the frame with `aluAnd`. -/
theorem andIsBitwise : Obligations.AndIsBitwise :=
  twoRegisterAlu_of_aluBinary rfl rfl (fun _ _ _ => rfl) fun va vb k _ => aluAnd_getLsbD va vb k

/-- Settles O34: the frame with `aluOr`. -/
theorem orIsBitwise : Obligations.OrIsBitwise :=
  twoRegisterAlu_of_aluBinary rfl rfl (fun _ _ _ => rfl) fun va vb k _ => aluOr_getLsbD va vb k

/-- Settles O35: the frame with `aluXor`. -/
theorem xorIsBitwise : Obligations.XorIsBitwise :=
  twoRegisterAlu_of_aluBinary rfl rfl (fun _ _ _ => rfl) fun va vb k _ => aluXor_getLsbD va vb k

theorem exec_div (a b : Byte) (s : State) : exec (.div a b) s = complete 2 s (aluBinary aluDiv a b s) := rfl

/-- Settles O32: the two sides of `aluDiv`. -/
theorem divIsFloorOfQuotient : Obligations.DivIsFloorOfQuotient := by
  refine ⟨fetchedF2_of_row rfl rfl, checksTwoIndices_of_aluBinary exec_div, fun a b s => ⟨fun hzero => ?_, fun hne => ?_⟩⟩
  · rw [exec_div, aluBinary_of_error (aluDiv_of_eq_zero hzero _)]
    rfl
  · obtain ⟨v, hv, hbelow, habove⟩ := aluDiv_of_ne_zero hne (s.reg a)
    have hok : exec (.div (regByte a) (regByte b)) s = complete 2 s (.ok (s.setReg a v, .advance)) := by
      rw [exec_div, aluBinary_of_ok hv]
    exact completesOrOverruns_of_exec hok rfl ⟨v, hbelow, habove, rfl⟩

theorem exec_not_bad {a : Byte} (ha : 8 ≤ a.toNat) (s : State) :
    exec (.not a) s = .next (failed s .outOfRange a.toNat) := by
  simp only [exec, execNot, readReg_bad ha]
  rfl

theorem exec_not_regByte (a : Fin 8) (s : State) :
    exec (.not (regByte a)) s = complete 1 s (.ok (s.setReg a (aluNot (s.reg a)), .advance)) := by
  simp only [exec, execNot, readReg_regByte, bind, Except.bind, writeReg_regByte]

/-- Settles O36: the complement, as a number and bit by bit. -/
theorem notIsComplement : Obligations.NotIsComplement :=
  ⟨fetchedF1_of_row rfl rfl, fun _ s ha => exec_not_bad ha s, fun a s =>
    completesOrOverruns_of_exec (exec_not_regByte a s) rfl ⟨_, aluNot_toNat _, fun _ hk => aluNot_getLsbD _ hk, rfl⟩⟩

/-! ### PUSH and CALL -/

theorem pushAddress_of_eq_zero {s : State} (h : s.reg 7 = 0) : pushAddress s = .error ⟨.stackUnderflow, 0⟩ :=
  if_pos (congrArg BitVec.toNat h)

theorem exec_push_underflow {s : State} (hsp : s.reg 7 = 0) (a : Byte) :
    exec (.push a) s = .next (failed s .stackUnderflow 0) := by
  simp only [exec, execPush, pushAddress_of_eq_zero hsp]
  rfl

theorem exec_push_bad {s : State} (hsp : s.reg 7 ≠ 0) {a : Byte} (ha : 8 ≤ a.toNat) :
    exec (.push a) s = .next (failed s .outOfRange a.toNat) := by
  simp only [exec, execPush, pushAddress_of_ne hsp, bind, Except.bind, readReg_bad ha]
  rfl

/-- The memory after a push, cell by cell. -/
theorem read_pushed_mem (s : State) (v : Byte) (addr : Nat) :
    Memory.read (s.pushed v).mem addr = if addr = (s.reg 7).toNat - 1 then v else cell s addr := by
  rw [State.pushed, State.setMem_mem, Memory.read_write, cell]
  exact if_congr eq_comm rfl rfl

/-- Settles O37: the underflow, the bad index, and the push of the register as it is after the decrement. -/
theorem pushStoresBelowStack : Obligations.PushStoresBelowStack := by
  refine ⟨fetchedF1_push, fun a s hsp => exec_push_underflow hsp a, fun a s hsp ha => exec_push_bad hsp ha,
    fun a s hsp => completesOrOverruns_of_exec (exec_push_regByte hsp a) rfl
      ⟨(s.pushed (s.decSp.reg a)).mem, rfl, fun addr => ?_⟩⟩
  rw [read_pushed_mem, State.decSp_reg]

theorem exec_call_underflow {s : State} (hsp : s.reg 7 = 0) (a : Byte) :
    exec (.call a) s = .next (failed s .stackUnderflow 0) := by
  simp only [exec, execCall, pushAddress_of_eq_zero hsp]
  rfl

/-- The store precedes the index check, but none of it stands when the check fails (D14, D15). -/
theorem exec_call_bad {s : State} (hsp : s.reg 7 ≠ 0) {a : Byte} (ha : 8 ≤ a.toNat) :
    exec (.call a) s = .next (failed s .outOfRange a.toNat) := by
  simp only [exec, execCall, pushAddress_of_ne hsp, bind, Except.bind, setReg_pushAddress hsp, storeByte_decSp,
    readReg_bad ha]
  rfl

/-- Settles O39: the underflow, the bad index, and the push of the return address before the jump. -/
theorem callPushesReturnAddress : Obligations.CallPushesReturnAddress := by
  refine ⟨fetchedF1_call, fun a s hsp => exec_call_underflow hsp a, fun a s hsp ha => exec_call_bad hsp ha,
    fun a s hsp => ⟨_, _, BitVec.toNat_ofNat _ 8, read_pushed_mem s _, ?_⟩⟩
  rw [exec_call_regByte hsp, complete_target, State.decSp_reg]
  rfl

/-! ### POP -/

theorem popAddress_of_eq {s : State} (h : s.reg 7 = 255) : popAddress s = .error ⟨.stackOverflow, 255⟩ :=
  if_pos (congrArg BitVec.toNat h)

theorem popAddress_of_ne {s : State} (h : s.reg 7 ≠ 255) : popAddress s = .ok (s.reg 7).toNat :=
  if_neg fun h' => h (BitVec.eq_of_toNat_eq h')

theorem incrementSp_of_eq {s : State} (h : s.reg 7 = 255) : incrementSp s = .error ⟨.stackOverflow, 255⟩ :=
  if_pos (congrArg BitVec.toNat h)

theorem incrementSp_of_ne {s : State} (h : s.reg 7 ≠ 255) : incrementSp s = .ok (s.setReg 7 (s.reg 7 + 1)) := by
  have hnext : BitVec.ofNat 8 ((s.reg 7).toNat + 1) = s.reg 7 + 1 := by
    rw [BitVec.ofNat_add, BitVec.ofNat_toNat, BitVec.setWidth_eq]
    rfl
  rw [← hnext]
  exact if_neg fun h' => h (BitVec.eq_of_toNat_eq h')

/-- The byte a pop reads is always in memory. -/
theorem loadByte_sp (s : State) : loadByte (s.reg 7).toNat s = .ok (cell s (s.reg 7).toNat) :=
  loadByte_of_le (by omega) s

theorem exec_pop_overflow {s : State} (hsp : s.reg 7 = 255) (a : Byte) :
    exec (.pop a) s = .next (failed s .stackOverflow 255) := by
  simp only [exec, execPop, popAddress_of_eq hsp]
  rfl

theorem exec_pop_bad {s : State} (hsp : s.reg 7 ≠ 255) {a : Byte} (ha : 8 ≤ a.toNat) :
    exec (.pop a) s = .next (failed s .outOfRange a.toNat) := by
  simp only [exec, execPop, popAddress_of_ne hsp, bind, Except.bind, loadByte_sp, writeReg_bad ha]
  rfl

/-- The state after the first of POP's two writes. -/
def State.popInto (s : State) (a : Fin 8) : State := s.setReg a (cell s (s.reg 7).toNat)

/-- POP of a register, where the stack pointer is not 255: the second write and the second check are of the stack pointer as
the first write left it (44_stack.md R152). -/
theorem exec_pop_regByte {s : State} (hsp : s.reg 7 ≠ 255) (a : Fin 8) : exec (.pop (regByte a)) s =
    complete 1 s ((incrementSp (s.popInto a)).bind fun s' => .ok (s', .advance)) := by
  simp only [exec, execPop, popAddress_of_ne hsp, bind, Except.bind, loadByte_sp, writeReg_regByte, State.popInto]

/-- Where the second check succeeds, POP completes or overruns. -/
theorem completesOrOverruns_pop {s : State} {a : Fin 8} {E : State → Prop} (hsp : s.reg 7 ≠ 255)
    (hnext : (s.popInto a).reg 7 ≠ 255) (hE : E ((s.popInto a).setReg 7 ((s.popInto a).reg 7 + 1))) :
    CompletesOrOverruns (.pop (regByte a)) 2 s E := by
  have hok := exec_pop_regByte hsp a
  rw [incrementSp_of_ne hnext] at hok
  exact completesOrOverruns_of_exec hok rfl hE

/-- After the first write register 7 holds the byte itself, where the operand is register 7 (D11). -/
theorem popInto_reg_sp_of_eq (s : State) : (s.popInto 7).reg 7 = cell s (s.reg 7).toNat := by
  rw [State.popInto, State.reg_setReg, if_pos rfl]

theorem popInto_reg_sp_of_ne {a : Fin 8} (ha : a ≠ 7) (s : State) : (s.popInto a).reg 7 = s.reg 7 := by
  rw [State.popInto, State.reg_setReg, if_neg ha]

/-- The second of two writes to one register stands. -/
theorem State.setReg_setReg (s : State) (r : Fin 8) (v w : Byte) : (s.setReg r v).setReg r w = s.setReg r w := by
  simp only [State.setReg, Vector.set_set]

theorem exec_pop_sp_overflow {s : State} (hsp : s.reg 7 ≠ 255) (hbyte : cell s (s.reg 7).toNat = 255) :
    exec (.pop (regByte 7)) s = .next (failed s .stackOverflow 255) := by
  rw [exec_pop_regByte hsp, incrementSp_of_eq ((popInto_reg_sp_of_eq s).trans hbyte)]
  rfl

/-- Settles O38: the overflow, the bad index, and the two writes, of one register or of two. -/
theorem popLoadsFromStack : Obligations.PopLoadsFromStack := by
  refine ⟨fetchedF1_of_row rfl rfl, fun a s hsp => exec_pop_overflow hsp a, fun a s hsp ha => exec_pop_bad hsp ha,
    fun s => exec_pop_sp_overflow, fun s hsp hbyte => ?_, fun a s ha hsp => ?_⟩
  · refine completesOrOverruns_pop hsp ((popInto_reg_sp_of_eq s).trans_ne hbyte) ?_
    rw [popInto_reg_sp_of_eq, State.popInto, State.setReg_setReg]
    rfl
  · refine completesOrOverruns_pop hsp ((popInto_reg_sp_of_ne ha s).trans_ne hsp) ?_
    rw [popInto_reg_sp_of_ne ha]
    rfl

/-! ### JMP, JEQ, JNE -/

theorem exec_jmp_bad {a : Byte} (ha : 8 ≤ a.toNat) (s : State) :
    exec (.jmp a) s = .next (failed s .outOfRange a.toNat) := by
  simp only [exec, execJmp, jumpIf, if_true, readReg_bad ha]
  rfl

theorem exec_jmp_regByte (a : Fin 8) (s : State) : exec (.jmp (regByte a)) s = .next { s with pc := s.reg a } := by
  simp only [exec, execJmp, jumpIf, if_true, readReg_regByte]
  rfl

/-- Settles O41: a target never overruns. -/
theorem jmpJumps : Obligations.JmpJumps :=
  ⟨fetchedF1_of_row rfl rfl, fun _ s ha => exec_jmp_bad ha s, exec_jmp_regByte⟩

/-- A conditional jump that is taken is JMP; one that is not only advances (45_control_transfer.md R164, R165). -/
theorem exec_jeq_taken {s : State} (hE : s.fl.getLsbD 0 = true) (a : Byte) : exec (.jeq a) s = exec (.jmp a) s := by
  simp only [exec, execJeq, execJmp, flagE, flagBitE, hE]

theorem exec_jeq_untaken {s : State} (hE : s.fl.getLsbD 0 = false) (a : Byte) :
    exec (.jeq a) s = complete 1 s (.ok (s, .advance)) := by
  simp only [exec, execJeq, flagE, flagBitE, hE]
  rfl

theorem exec_jne_taken {s : State} (hE : s.fl.getLsbD 0 = false) (a : Byte) : exec (.jne a) s = exec (.jmp a) s := by
  simp only [exec, execJne, execJmp, flagE, flagBitE, hE, Bool.not_false]

theorem exec_jne_untaken {s : State} (hE : s.fl.getLsbD 0 = true) (a : Byte) :
    exec (.jne a) s = complete 1 s (.ok (s, .advance)) := by
  simp only [exec, execJne, flagE, flagBitE, hE]
  rfl

/-- Settles O42: taken it is JMP, untaken it only advances. -/
theorem jeqJumpsWhenEqual : Obligations.JeqJumpsWhenEqual :=
  ⟨fetchedF1_of_row rfl rfl, fun a s hE => (exec_jeq_taken hE _).trans (exec_jmp_regByte a s),
    fun a s hE ha => (exec_jeq_taken hE a).trans (exec_jmp_bad ha s),
    fun a _ hE => completesOrOverruns_of_exec (exec_jeq_untaken hE a) rfl rfl⟩

/-- Settles O43: taken it is JMP, untaken it only advances. -/
theorem jneJumpsWhenNotEqual : Obligations.JneJumpsWhenNotEqual :=
  ⟨fetchedF1_of_row rfl rfl, fun a s hE => (exec_jne_taken hE _).trans (exec_jmp_regByte a s),
    fun a s hE ha => (exec_jne_taken hE a).trans (exec_jmp_bad ha s),
    fun a _ hE => completesOrOverruns_of_exec (exec_jne_untaken hE a) rfl rfl⟩

end Sys2Proof.Machine
end

section
/-! PROOFS. The system and data-move instructions (41_system_and_data.md): which step emits, how HLT ends, and LDI followed
by PRN. -/

namespace Sys2Proof.Machine
open Sys2Proof.Stated

/-! ### Which step emits (47_external_interfaces.md R171) -/

/-- Only PRN has an effect on the output: the byte of the register it names. -/
theorem Effect.output_cases {i : Instr} {s s' : State} (h : Effect i s s') :
    s'.output = s.output ∨ ∃ r, i = .prn (regByte r) ∧ s'.output = s.output ++ [s.reg r] := by
  cases i with
  | prn a => obtain ⟨r, rfl, rfl⟩ := h; exact .inr ⟨r, rfl, rfl⟩
  | hlt | jmp | jeq | jne => exact .inl (congrArg State.output h)
  | ldi | add | mul | sub | div | and | or | xor | not => obtain ⟨r, v, -, rfl⟩ := h; exact .inl rfl
  | cmp => obtain ⟨va, vb, rfl⟩ := h; exact .inl rfl
  | push | call => obtain ⟨addr, v, -, -, rfl⟩ := h; exact .inl rfl
  | pop => obtain ⟨r, v, w, -, rfl⟩ := h; exact .inl rfl
  | ret => obtain ⟨v, rfl⟩ := h; exact .inl rfl

/-- The output after an instruction is its effect's, whether the instruction completes or overruns. -/
theorem exec_output_cases {i : Instr} {s t : State} (h : exec i s = .next t) :
    t.output = s.output ∨ ∃ r, i = .prn (regByte r) ∧ t.output = s.output ++ [s.reg r] := by
  rcases exec_data h with ⟨-, -, -, hout⟩ | ⟨s', heffect, -, -, -, hout⟩
  · exact .inl hout
  · rw [hout]
    exact heffect.output_cases

/-- Settles O19: a step that runs no instruction emits nothing, and an instruction that emits is PRN, whose operand is the
byte after the opcode. -/
theorem onlyPrnEmits : Obligations.OnlyPrnEmits := by
  intro s t h
  rcases step_cases h with ⟨-, rfl⟩ | ⟨-, -, rfl⟩ | ⟨-, -, rfl⟩ | ⟨-, i, hop, -, hops, hexec⟩
  · exact .inl rfl
  · exact .inl rfl
  · exact .inl rfl
  · refine (exec_output_cases hexec).imp_right fun ⟨r, hi, hout⟩ => ?_
    subst hi
    exact ⟨hop.symm, r, (List.cons.inj hops).1.symm, hout⟩

/-! ### HLT -/

theorem commit_halt_of_le {npc : Nat} (h : npc ≤ 255) (s : State) :
    commit npc .halt s = s.halt.setPc (BitVec.ofNat 8 npc) := if_pos h

/-- A halt beyond the top of memory keeps the pc, without an overrun (D13). -/
theorem commit_halt_of_gt {npc : Nat} (h : 255 < npc) (s : State) : commit npc .halt s = s.halt :=
  if_neg (Nat.not_le.2 h)

theorem exec_hlt_eq_commit (s : State) : exec .hlt s = .next (commit (s.pc.toNat + 1) .halt s) := rfl

/-- Settles O25: the fetch of a byte without operands, and the halt with and without a next address. -/
theorem hltHalts : Obligations.HltHalts := by
  refine ⟨fetchedF0_hlt, fun s => ?_⟩
  have hle := pc_toNat_le s
  rw [exec_hlt_eq_commit]
  split
  next htop => rw [commit_halt_of_gt (by omega)]; rfl
  next hfit => rw [commit_halt_of_le (by omega)]; rfl

/-! ### LDI followed by PRN (R122) -/

theorem pastPc_pc_toNat {s : State} {n : Nat} (h : s.pc.toNat + n ≤ 255) : (pastPc s n).pc.toNat = s.pc.toNat + n := by
  rw [pastPc, BitVec.toNat_ofNat, Nat.mod_eq_of_lt (by omega)]

/-- One step of an LDI with a next address (R121). -/
theorem step_ldi {s : State} {r : Fin 8} (hrun : s.run = .running) (hfit : s.pc.toNat + 3 ≤ 255)
    (hop : opcodeAtPc s = 0x82) (ha : cell s (s.pc.toNat + 1) = regByte r) :
    ∃ t, step s = .next t ∧ t.run = .running ∧ t.pc.toNat = s.pc.toNat + 3 ∧ t.mem = s.mem ∧ t.output = s.output ∧
      t.reg r = cell s (s.pc.toNat + 2) := by
  obtain ⟨hfetch, -, hexec⟩ := ldiLoadsImmediate
  obtain ⟨_, rfl, hnext⟩ := (hexec r (cell s (s.pc.toNat + 2)) s).1 hfit
  refine ⟨pastPc (s.setReg r _) 3, ?_, hrun, pastPc_pc_toNat hfit, rfl, rfl, (State.reg_setReg s r r _).trans (if_pos rfl)⟩
  rw [(hfetch s hrun hop).1 (by omega), ha]
  exact hnext

/-- One step of a PRN with a next address (R122). -/
theorem step_prn {s : State} {r : Fin 8} (hrun : s.run = .running) (hfit : s.pc.toNat + 2 ≤ 255)
    (hop : opcodeAtPc s = 0x47) (ha : cell s (s.pc.toNat + 1) = regByte r) :
    ∃ t, step s = .next t ∧ t.run = .running ∧ t.pc.toNat = s.pc.toNat + 2 ∧ t.output = s.output ++ [s.reg r] := by
  obtain ⟨hfetch, -, hexec⟩ := prnEmitsRegister
  obtain ⟨_, rfl, hnext⟩ := (hexec r s).1 hfit
  refine ⟨pastPc (s.emit (s.reg r)) 2, ?_, hrun, pastPc_pc_toNat hfit, rfl⟩
  rw [(hfetch s hrun hop).1 (by omega), ha]
  exact hnext

/-- Settles O48: the LDI's step leaves the pc at the PRN and `v` in its register, memory and output as they were. -/
theorem ldiThenPrnEmitsValue : Obligations.LdiThenPrnEmitsValue := by
  intro s r v hrun hfit hldi hldiA hldiB hprn hprnA
  obtain ⟨u, hfirst, hurun, hupc, humem, huout, hureg⟩ := step_ldi hrun (by omega) hldi hldiA
  have hop : opcodeAtPc u = 0x47 := by rw [opcodeAtPc, memoryKept_of_mem_eq humem, hupc, hprn]
  have ha : cell u (u.pc.toNat + 1) = regByte r := by rw [memoryKept_of_mem_eq humem, hupc, hprnA]
  obtain ⟨t, hsecond, htrun, htpc, htout⟩ := step_prn hurun (by omega) hop ha
  refine ⟨t, by rw [steps_succ hfirst, steps_succ hsecond, steps], ?_, by omega, htrun⟩
  rw [htout, huout, hureg, hldiB]

end Sys2Proof.Machine
end

section
/-! PROOFS. The ALU (42_alu.md): the error kind no step raises (R134), and CMP followed by a conditional jump (R133). -/

namespace Sys2Proof.Machine
open Sys2Proof.Stated

/-! ### The error status after a step -/

/-- A commit keeps the error status, or takes the PC overrun (R107). -/
theorem commit_err_cases (npc : Nat) (next : NextPc) (s : State) :
    (commit npc next s).err = s.err ∨ (commit npc next s).err = some .outOfRange := by
  rcases commit_cases npc next s with ⟨-, -, h⟩ | ⟨-, -, h⟩ | ⟨_, -, h⟩ | ⟨-, -, h⟩ | ⟨-, -, h⟩ <;> rw [h]
  on_goal 5 => exact .inr rfl
  all_goals exact .inl rfl

/-- An instruction keeps the error status, or sets it to the kind of a legal error (R190). -/
theorem exec_err_cases {i : Instr} {s t : State} (h : exec i s = .next t) :
    t.err = s.err ∨ ∃ e : FatalError, e.Legal ∧ t.err = some e.kind := by
  rcases exec_cases h with ⟨e, he, rfl⟩ | ⟨s', next, heffect, -, rfl⟩
  · exact .inr ⟨e, he, rfl⟩
  · obtain ⟨-, herr, -⟩ := heffect.status
    rw [← herr]
    exact (commit_err_cases _ next s').imp_right fun hover => ⟨_, legal_topOverrun, hover⟩

/-- A step keeps the error status, or sets it to the kind of a legal error (R190). -/
theorem step_err_cases {s t : State} (h : step s = .next t) :
    t.err = s.err ∨ ∃ e : FatalError, e.Legal ∧ t.err = some e.kind := by
  rcases step_cases h with ⟨-, rfl⟩ | ⟨-, hrow, rfl⟩ | ⟨-, -, rfl⟩ | ⟨-, i, -, -, -, hexec⟩
  · exact .inl rfl
  · exact .inr ⟨_, legal_unknownInstruction hrow, rfl⟩
  · exact .inr ⟨_, legal_topOverrun, rfl⟩
  · exact exec_err_cases hexec

/-- No value is legal for UnsupportedALUOperation (R195). -/
theorem FatalError.Legal.kind_ne {e : FatalError} (h : e.Legal) : e.kind ≠ .unsupportedAluOperation := by
  intro hk
  rw [FatalError.Legal, hk] at h
  exact Bool.false_ne_true h

/-- Settles O21: the error status after a step is the one before it, or the kind of a legal error, which is another. -/
theorem unsupportedAluOperationIsUnreachable : Obligations.UnsupportedAluOperationIsUnreachable := by
  intro s t hs h
  rcases step_err_cases h with hkept | ⟨e, he, hraised⟩
  · rwa [hkept]
  · rw [hraised]
    exact fun hk => he.kind_ne (Option.some.inj hk)

/-! ### CMP followed by a conditional jump (R133, 45_control_transfer.md R164, R165) -/

/-- Bit E of what CMP writes says whether the operands were equal. -/
theorem flagE_compareFlags (va vb : Byte) : flagE (compareFlags va vb) = decide (va = vb) := by
  rcases Nat.lt_trichotomy va.toNat vb.toNat with hlt | heq | hgt
  · have hne : va ≠ vb := fun h => Nat.ne_of_lt hlt (congrArg BitVec.toNat h)
    rw [compareFlags_of_lt hlt, decide_eq_false hne]
    rfl
  · rw [BitVec.eq_of_toNat_eq heq, compareFlags_of_eq, decide_eq_true rfl]
    rfl
  · have hne : va ≠ vb := fun h => Nat.ne_of_gt hgt (congrArg BitVec.toNat h)
    rw [compareFlags_of_gt hgt, decide_eq_false hne]
    rfl

/-- CMP of two registers with a next address leaves their equality in bit E, and every register as it was (R133). -/
theorem exec_cmp_of_fits {s : State} (hfit : s.pc.toNat + 3 ≤ 255) (a b : Fin 8) :
    ∃ t, exec (.cmp (regByte a) (regByte b)) s = .next t ∧ t.pc.toNat = s.pc.toNat + 3 ∧
      flagE t.fl = decide (s.reg a = s.reg b) ∧ ∀ r, t.reg r = s.reg r :=
  ⟨pastPc (s.setFl (compareFlags (s.reg a) (s.reg b))) 3, (exec_cmp_regByte a b s).trans (complete_advance_fits hfit),
    pastPc_pc_toNat hfit, flagE_compareFlags _ _, fun _ => rfl⟩

/-- A conditional jump with a next address only moves the pc: to `x[d]` where it is taken, past the jump where not. -/
theorem complete_jumpIf_of_fits {s : State} (hfit : s.pc.toNat + 2 ≤ 255) (taken : Bool) (d : Fin 8) :
    complete 1 s (jumpIf taken (regByte d) s) =
      .next (s.setPc (if taken then s.reg d else BitVec.ofNat 8 (s.pc.toNat + 2))) := by
  cases taken with
  | true => exact exec_jmp_regByte d s
  | false => exact complete_advance_fits hfit

/-- JEQ with a next address (R164). -/
theorem exec_jeq_of_fits {s : State} (hfit : s.pc.toNat + 2 ≤ 255) (d : Fin 8) : exec (.jeq (regByte d)) s =
    .next (s.setPc (if flagE s.fl then s.reg d else BitVec.ofNat 8 (s.pc.toNat + 2))) :=
  complete_jumpIf_of_fits hfit (flagE s.fl) d

/-- JNE with a next address (R165). -/
theorem exec_jne_of_fits {s : State} (hfit : s.pc.toNat + 2 ≤ 255) (d : Fin 8) : exec (.jne (regByte d)) s =
    .next (s.setPc (if !flagE s.fl then s.reg d else BitVec.ofNat 8 (s.pc.toNat + 2))) :=
  complete_jumpIf_of_fits hfit (!flagE s.fl) d

/-- Settles O51: CMP leaves the pc at the jump, the registers as they were, and in bit E whether the two were equal. -/
theorem cmpDecidesJeqAndJne : Obligations.CmpDecidesJeqAndJne := by
  intro s a b d hfit
  obtain ⟨t, hcmp, hpc, hE, hreg⟩ := exec_cmp_of_fits (s := s) (by omega) a b
  have hnext : t.pc.toNat + 2 ≤ 255 := by omega
  refine ⟨t, _, _, hcmp, exec_jeq_of_fits hnext d, exec_jne_of_fits hnext d, ?_, ?_⟩
  · simp only [State.setPc_pc, hE, hpc, hreg, decide_eq_true_eq]
  · simp only [State.setPc_pc, hE, hpc, hreg, Bool.not_eq_true', decide_eq_false_iff_not, ite_not]

end Sys2Proof.Machine
end

section
/-! PROOFS. The stack (44_stack.md): RET, and PUSH followed by POP (R151, R152). -/

namespace Sys2Proof.Machine
open Sys2Proof.Stated

/-! ### RET (45_control_transfer.md R162) -/

theorem exec_ret_overflow {s : State} (hsp : s.reg 7 = 255) : exec .ret s = .next (failed s .stackOverflow 255) := by
  simp only [exec, execRet, popAddress_of_eq hsp]
  rfl

/-- RET where the stack pointer is not 255: it is incremented, and the target is the byte it pointed at. -/
theorem exec_ret_of_ne {s : State} (hsp : s.reg 7 ≠ 255) :
    exec .ret s = .next ((s.setReg 7 (s.reg 7 + 1)).setPc (cell s (s.reg 7).toNat)) := by
  simp only [exec, execRet, popAddress_of_ne hsp, bind, Except.bind, loadByte_sp, incrementSp_of_ne hsp,
    complete_target]

/-- Settles O40: the fetch, the overflow, and the jump to the byte at `sp`. -/
theorem retPopsPc : Obligations.RetPopsPc :=
  ⟨fetchedF0_of_row rfl rfl, fun _ => exec_ret_overflow, fun _ => exec_ret_of_ne⟩

/-! ### PUSH followed by POP -/

/-- PUSH with a next address leaves the register's byte, as it is after the decrement, in the cell the stack pointer
then points at (R151). -/
theorem exec_push_of_fits {s : State} (hsp : s.reg 7 ≠ 0) (hfit : s.pc.toNat + 2 ≤ 255) (a : Fin 8) :
    ∃ t, exec (.push (regByte a)) s = .next t ∧ t.pc.toNat = s.pc.toNat + 2 ∧ t.reg 7 = s.reg 7 - 1 ∧
      cell t (t.reg 7).toNat = s.decSp.reg a := by
  have hreg : s.decSp.reg 7 = s.reg 7 - 1 := (State.decSp_reg s 7).trans (if_pos rfl)
  refine ⟨pastPc (s.pushed (s.decSp.reg a)) 2, (exec_push_regByte hsp a).trans (complete_advance_fits hfit),
    pastPc_pc_toNat hfit, hreg, ?_⟩
  change cell (s.pushed _) (s.decSp.reg 7).toNat = _
  rw [hreg, toNat_sub_one_of_ne_zero hsp, cell_pushed_same]

/-- POP of a register other than 7 with a next address takes the byte at `sp` and increments `sp` (R152). -/
theorem exec_pop_of_fits {s : State} {b : Fin 8} (hb : b ≠ 7) (hsp : s.reg 7 ≠ 255) (hfit : s.pc.toNat + 2 ≤ 255) :
    ∃ t, exec (.pop (regByte b)) s = .next t ∧ t.pc.toNat = s.pc.toNat + 2 ∧ t.reg b = cell s (s.reg 7).toNat ∧
      t.reg 7 = s.reg 7 + 1 := by
  obtain ⟨-, -, -, -, -, hpop⟩ := popLoadsFromStack
  obtain ⟨_, rfl, hexec⟩ := (hpop b s hb hsp).1 hfit
  refine ⟨pastPc ((s.setReg b _).setReg spIndex (s.reg 7 + 1)) 2, hexec, pastPc_pc_toNat hfit, ?_, ?_⟩
  · exact (reg_setReg_spIndex_of_ne hb _ _).trans ((State.reg_setReg s b b _).trans (if_pos rfl))
  · exact (State.reg_setReg _ spIndex 7 _).trans (if_pos rfl)

/-- A nonzero stack pointer, decremented, is not at the top of memory, so a pop may follow (R150). -/
theorem sub_one_ne_of_ne_zero {v : Byte} (h : v ≠ 0) : v - 1 ≠ 255 := by
  bv_omega

/-- Settles O49: the PUSH leaves the byte of `x[a]` where the POP reads, and the POP undoes the decrement. -/
theorem pushThenPopRoundTrips : Obligations.PushThenPopRoundTrips := by
  intro s a b ha hb hsp hfit
  obtain ⟨t, hpush, htpc, htsp, hcell⟩ := exec_push_of_fits hsp (by omega) a
  have htop : t.reg 7 ≠ 255 := htsp.trans_ne (sub_one_ne_of_ne_zero hsp)
  obtain ⟨u, hpop, hupc, hub, husp⟩ := exec_pop_of_fits hb htop (by omega)
  refine ⟨t, u, hpush, hpop, ?_, ?_, by omega⟩
  · rw [hub, hcell, State.decSp_reg, if_neg ha]
  · rw [husp, htsp, BitVec.sub_add_cancel]

end Sys2Proof.Machine
end

section
/-! PROOFS. Control transfer (45_control_transfer.md): CALL followed by RET (R161, R162), and the JMP to itself
(70_reset_and_hazards.md R226). -/

namespace Sys2Proof.Machine
open Sys2Proof.Stated

/-! ### CALL followed by RET -/

/-- CALL of a register other than 7, where the stack pointer is not 0: the decrement does not reach the target (R161). -/
theorem exec_call_of_ne {s : State} {a : Fin 8} (ha : a ≠ 7) (hsp : s.reg 7 ≠ 0) :
    exec (.call (regByte a)) s = .next ((s.pushed (BitVec.ofNat 8 (s.pc.toNat + 2))).setPc (s.reg a)) := by
  rw [exec_call_regByte hsp, complete_target, State.decSp_reg, if_neg ha]
  rfl

theorem State.decSp_reg_sp (s : State) : s.decSp.reg 7 = s.reg 7 - 1 := by
  rw [State.decSp_reg, if_pos rfl]

/-- The increment of a pop undoes the decrement of a push, and no other register changes (R150). -/
theorem State.decSp_setReg_sp_add_one (s : State) : s.decSp.setReg 7 (s.decSp.reg 7 + 1) = s := by
  rw [State.decSp_reg_sp, BitVec.sub_add_cancel]
  exact (State.setReg_setReg s 7 _ _).trans (State.setReg_reg s 7)

/-- The byte on top of the stack after a push is the byte pushed. -/
theorem cell_pushed_sp {s : State} (hsp : s.reg 7 ≠ 0) (v : Byte) : cell (s.pushed v) (s.decSp.reg 7).toNat = v := by
  rw [State.decSp_reg_sp, toNat_sub_one_of_ne_zero hsp, cell_pushed_same]

/-- RET right after a push, wherever the pc was set meanwhile: the byte pushed becomes the pc, and every register is as
before the push (R162). -/
theorem exec_ret_pushed {s : State} (hsp : s.reg 7 ≠ 0) (v pc : Byte) :
    ∃ u, exec .ret ((s.pushed v).setPc pc) = .next u ∧ u.pc = v ∧ ∀ r, u.reg r = s.reg r := by
  have htop : ((s.pushed v).setPc pc).reg 7 ≠ 255 := (State.decSp_reg_sp s).trans_ne (sub_one_ne_of_ne_zero hsp)
  exact ⟨_, exec_ret_of_ne htop, cell_pushed_sp hsp v, fun r => congrArg (·.reg r) (State.decSp_setReg_sp_add_one s)⟩

/-- Settles O50: the CALL pushes the address after itself, and the RET pops it. -/
theorem callThenRetResumes : Obligations.CallThenRetResumes := by
  intro s a ha hsp
  obtain ⟨u, hret, hpc, hreg⟩ := exec_ret_pushed hsp (BitVec.ofNat 8 (s.pc.toNat + 2)) (s.reg a)
  refine ⟨_, u, exec_call_of_ne ha hsp, rfl, hret, ?_, hreg⟩
  rw [hpc, BitVec.toNat_ofNat]

/-! ### A JMP to itself -/

/-- A state that a step answers unchanged is answered unchanged by any number of steps. -/
theorem steps_of_step_self {s : State} (h : step s = .next s) (k : Nat) : steps k s = .next s := by
  induction k with
  | zero => rfl
  | succ k ih => rw [steps_succ h, ih]

/-- Settles O53: the JMP's step sets the pc to what it was, so the state is a fixed point of the step. -/
theorem selfJumpNeverHalts : Obligations.SelfJumpNeverHalts := by
  intro k s r hrun hfit hop hoperand htarget
  obtain ⟨hfetch, -, hexec⟩ := jmpJumps
  have hstep : step s = .next s := by
    rw [(hfetch s hrun hop).1 hfit, hoperand, hexec, htarget]
  exact steps_of_step_self hstep k

end Sys2Proof.Machine
end

section
/-! PROOFS. The external interfaces (47_external_interfaces.md): what the trace snapshot shows (R172). -/

namespace Sys2Proof.Machine
open Sys2Proof.Stated

theorem traceByte_of_le {addr : Nat} (h : addr ≤ 255) (m : Memory) : traceByte m addr = some (Memory.read m addr) :=
  if_pos h

theorem traceByte_of_gt {addr : Nat} (h : 255 < addr) (m : Memory) : traceByte m addr = none :=
  if_neg (Nat.not_le.mpr h)

/-- The byte at place `k` of the snapshot is the cell at `pc + k`, as the observer sees it. -/
theorem State.snapshot_bytes_getElem? (s : State) (k : Fin 3) :
    s.snapshot.bytes[k.val]? = some (traceByte s.mem (s.pc.toNat + k.val)) := by
  match k with
  | 0 => rfl
  | 1 => rfl
  | 2 => rfl

/-- Settles O24: place `k` of the snapshot shows the cell at `pc + k`, which the observer sees exactly up to address 255. -/
theorem snapshotShowsState : Obligations.SnapshotShowsState := by
  refine fun s => ⟨rfl, rfl, rfl, fun k => ⟨fun hle => ?_, fun hgt => ?_⟩⟩
  · rw [s.snapshot_bytes_getElem? k, traceByte_of_le hle, cell]
  · rw [s.snapshot_bytes_getElem? k, traceByte_of_gt hgt]

end Sys2Proof.Machine
end

section
/-! PROOFS. The fatal errors an instruction raises (60_exceptions.md R190 to R197): each kind with its cause and its
value. What an instruction can do is taken from the statement about it, settled above. -/

namespace Sys2Proof.Machine
open Sys2Proof.Stated

/-! ### The causes -/

/-- In some state `i` has no other next address than that of the default advance (R107, R120, R160). -/
def CanOverrun (i : Instr) : Prop :=
  i ≠ .hlt ∧ i ≠ .ret ∧ ∀ a, i ≠ .call a ∧ i ≠ .jmp a

/-- Why instruction `i`, begun in `s`, raises an error of the given kind, with the value recorded. -/
inductive ErrorCause (i : Instr) (s : State) : ErrKind → Nat → Prop
  /-- A register index above 7 (10_state.md R24, R191). -/
  | badIndex {r : Byte} (hr : r ∈ i.registerOperands) (hbad : 8 ≤ r.toNat) : ErrorCause i s .outOfRange r.toNat
  /-- No next address (R107, R191). -/
  | overrun (hi : CanOverrun i) (hover : 255 < s.pc.toNat + (encode i).length) :
      ErrorCause i s .outOfRange (s.pc.toNat + (encode i).length)
  /-- No room for a push (R193). -/
  | noRoom (hi : ∃ a, i = .push a ∨ i = .call a) (hsp : s.reg 7 = 0) : ErrorCause i s .stackUnderflow 0
  /-- Nothing to pop (R194). -/
  | nothingToPop (hi : (∃ a, i = .pop a) ∨ i = .ret) (hsp : s.reg 7 = 255) : ErrorCause i s .stackOverflow 255
  /-- The second check of POP, of the byte just popped into the stack pointer (R152, R194). -/
  | poppedTop (hi : i = .pop (regByte 7)) (hbyte : cell s (s.reg 7).toNat = 255) : ErrorCause i s .stackOverflow 255
  /-- A zero divisor (R196). -/
  | zeroDivisor {a b : Fin 8} (hi : i = .div (regByte a) (regByte b)) (hzero : s.reg b = 0) :
      ErrorCause i s .divideByZero (s.reg a).toNat

/-- `i`, begun in `s`, keeps the error status, or ends in an error that has a cause. -/
def FailsForCause (i : Instr) (s : State) : Prop :=
  ∃ t, exec i s = .next t ∧ (t.err = s.err ∨ ∃ k, t.err = some k ∧ ErrorCause i s k t.errinfo)

section
variable {i : Instr} {s : State}

/-! ### The ways an instruction ends -/

theorem failsForCause_of_kept {t : State} (h : exec i s = .next t) (herr : t.err = s.err) : FailsForCause i s :=
  ⟨t, h, .inl herr⟩

theorem failsForCause_of_failed {k : ErrKind} {v : Nat} (h : exec i s = .next (failed s k v))
    (hcause : ErrorCause i s k v) : FailsForCause i s :=
  ⟨_, h, .inr ⟨k, rfl, hcause⟩⟩

/-- An instruction that completes or overruns, with an effect that is not on the error status. For a given instruction
`hi` is read off its constructor. -/
theorem failsForCause_of_completesOrOverruns {E : State → Prop} (h : CompletesOrOverruns i (encode i).length s E)
    (hE : ∀ s', E s' → s'.err = s.err) (hi : CanOverrun i := by simp [CanOverrun]) : FailsForCause i s := by
  obtain ⟨hcompletes, hoverruns⟩ := h
  rcases Nat.lt_or_ge 255 (s.pc.toNat + (encode i).length) with hover | hfit
  · obtain ⟨_, -, hexec⟩ := hoverruns hover
    exact ⟨_, hexec, .inr ⟨_, rfl, .overrun hi hover⟩⟩
  · obtain ⟨s', heffect, hexec⟩ := hcompletes hfit
    exact failsForCause_of_kept hexec (hE s' heffect)

/-! ### The operands -/

/-- An instruction with one register operand: bad, or the byte of a register. -/
theorem failsForCause_of_index {mk : Byte → Instr} {a : Byte} (ha : a ∈ (mk a).registerOperands)
    (hbad : 8 ≤ a.toNat → exec (mk a) s = .next (failed s .outOfRange a.toNat))
    (hgood : ∀ r : Fin 8, FailsForCause (mk (regByte r)) s) : FailsForCause (mk a) s := by
  rcases Nat.lt_or_ge a.toNat 8 with hlt | hge
  · obtain ⟨r, rfl⟩ := exists_regByte hlt
    exact hgood r
  · exact failsForCause_of_failed (hbad hge) (.badIndex ha hge)

section
variable {mk : Byte → Byte → Instr} (hmk : ∀ a b, (mk a b).registerOperands = [a, b])
include hmk

/-- An instruction with two register operands: the first bad, the second bad, or both the bytes of registers. -/
theorem failsForCause_of_checksTwoIndices (hchecks : ChecksTwoIndices mk)
    (hgood : ∀ a b : Fin 8, FailsForCause (mk (regByte a) (regByte b)) s) (a b : Byte) : FailsForCause (mk a b) s := by
  obtain ⟨hfirst, hsecond⟩ := hchecks
  refine failsForCause_of_index (mk := (mk · b)) (by simp [hmk]) (hfirst a b s) fun r => ?_
  exact failsForCause_of_index (mk := mk (regByte r)) (by simp [hmk]) (hsecond r b s) (hgood r)

/-- The two-register ALU instructions whose function never raises. -/
theorem failsForCause_of_twoRegisterAlu {op : Byte} {Result : Byte → Byte → Byte → Prop} {a b : Byte}
    (h : TwoRegisterAlu op mk Result) (hlen : ∀ a b, (encode (mk a b)).length = 3)
    (hi : ∀ a b, CanOverrun (mk a b) := by simp [CanOverrun]) : FailsForCause (mk a b) s := by
  obtain ⟨-, hchecks, hexec⟩ := h
  refine failsForCause_of_checksTwoIndices hmk hchecks (fun a b => ?_) a b
  exact failsForCause_of_completesOrOverruns (hlen _ _ ▸ hexec a b s) (fun _ ⟨_, _, hs⟩ => hs ▸ rfl) (hi _ _)

end
end

/-! ### The instructions whose ways to end are their own -/

theorem failsForCause_ldi (a b : Byte) (s : State) : FailsForCause (.ldi a b) s := by
  obtain ⟨-, hbad, hexec⟩ := ldiLoadsImmediate
  refine failsForCause_of_index (mk := (.ldi · b)) (List.mem_singleton_self a) (hbad a b s) fun r => ?_
  exact failsForCause_of_completesOrOverruns (hexec r b s) (fun _ hs => hs ▸ rfl)

theorem failsForCause_prn (a : Byte) (s : State) : FailsForCause (.prn a) s := by
  obtain ⟨-, hbad, hexec⟩ := prnEmitsRegister
  refine failsForCause_of_index (List.mem_singleton_self a) (hbad a s) fun r => ?_
  exact failsForCause_of_completesOrOverruns (hexec r s) (fun _ hs => hs ▸ rfl)

theorem failsForCause_cmp (a b : Byte) (s : State) : FailsForCause (.cmp a b) s := by
  obtain ⟨-, hchecks, hexec⟩ := cmpSetsOneFlag
  refine failsForCause_of_checksTwoIndices (fun _ _ => rfl) hchecks (fun a b => ?_) a b
  exact failsForCause_of_completesOrOverruns (hexec a b s) (fun _ ⟨_, hs, _⟩ => hs ▸ rfl)

theorem failsForCause_div (a b : Byte) (s : State) : FailsForCause (.div a b) s := by
  obtain ⟨-, hchecks, hexec⟩ := divIsFloorOfQuotient
  refine failsForCause_of_checksTwoIndices (fun _ _ => rfl) hchecks (fun a b => ?_) a b
  obtain ⟨hfails, hdivides⟩ := hexec a b s
  by_cases hzero : s.reg b = 0
  · exact failsForCause_of_failed (hfails hzero) (.zeroDivisor rfl hzero)
  · exact failsForCause_of_completesOrOverruns (hdivides hzero) (fun _ ⟨_, _, _, hs⟩ => hs ▸ rfl)

theorem failsForCause_not (a : Byte) (s : State) : FailsForCause (.not a) s := by
  obtain ⟨-, hbad, hexec⟩ := notIsComplement
  refine failsForCause_of_index (List.mem_singleton_self a) (hbad a s) fun r => ?_
  exact failsForCause_of_completesOrOverruns (hexec r s) (fun _ ⟨_, _, _, hs⟩ => hs ▸ rfl)

theorem failsForCause_push (a : Byte) (s : State) : FailsForCause (.push a) s := by
  obtain ⟨-, hunderflow, hbad, hexec⟩ := pushStoresBelowStack
  by_cases hsp : s.reg 7 = 0
  · exact failsForCause_of_failed (hunderflow a s hsp) (.noRoom ⟨a, .inl rfl⟩ hsp)
  · refine failsForCause_of_index (List.mem_singleton_self a) (hbad a s hsp) fun r => ?_
    exact failsForCause_of_completesOrOverruns (hexec r s hsp) (fun _ ⟨_, hs, _⟩ => hs ▸ rfl)

/-- POP of a register, where there is a byte to pop: only register 7 has a second check that can fail. -/
theorem failsForCause_pop_regByte {s : State} (hsp : s.reg 7 ≠ 255) (r : Fin 8) :
    FailsForCause (.pop (regByte r)) s := by
  obtain ⟨-, -, -, htop, hsame, hother⟩ := popLoadsFromStack
  by_cases hr : r = 7
  · subst hr
    by_cases hbyte : cell s (s.reg 7).toNat = 255
    · exact failsForCause_of_failed (htop s hsp hbyte) (.poppedTop rfl hbyte)
    · exact failsForCause_of_completesOrOverruns (hsame s hsp hbyte) (fun _ hs => hs ▸ rfl)
  · exact failsForCause_of_completesOrOverruns (hother r s hr hsp) (fun _ hs => hs ▸ rfl)

theorem failsForCause_pop (a : Byte) (s : State) : FailsForCause (.pop a) s := by
  obtain ⟨-, hoverflow, hbad, -⟩ := popLoadsFromStack
  by_cases hsp : s.reg 7 = 255
  · exact failsForCause_of_failed (hoverflow a s hsp) (.nothingToPop (.inl ⟨a, rfl⟩) hsp)
  · exact failsForCause_of_index (List.mem_singleton_self a) (hbad a s hsp) (failsForCause_pop_regByte hsp)

theorem failsForCause_call (a : Byte) (s : State) : FailsForCause (.call a) s := by
  obtain ⟨-, hunderflow, hbad, hexec⟩ := callPushesReturnAddress
  by_cases hsp : s.reg 7 = 0
  · exact failsForCause_of_failed (hunderflow a s hsp) (.noRoom ⟨a, .inr rfl⟩ hsp)
  · refine failsForCause_of_index (List.mem_singleton_self a) (hbad a s hsp) fun r => ?_
    obtain ⟨_, _, -, -, hcalls⟩ := hexec r s hsp
    exact failsForCause_of_kept hcalls rfl

theorem failsForCause_ret (s : State) : FailsForCause .ret s := by
  obtain ⟨-, hoverflow, hexec⟩ := retPopsPc
  by_cases hsp : s.reg 7 = 255
  · exact failsForCause_of_failed (hoverflow s hsp) (.nothingToPop (.inr rfl) hsp)
  · exact failsForCause_of_kept (hexec s hsp) rfl

theorem failsForCause_jmp (a : Byte) (s : State) : FailsForCause (.jmp a) s := by
  obtain ⟨-, hbad, hexec⟩ := jmpJumps
  exact failsForCause_of_index (List.mem_singleton_self a) (hbad a s) fun r => failsForCause_of_kept (hexec r s) rfl

theorem failsForCause_jeq (a : Byte) (s : State) : FailsForCause (.jeq a) s := by
  obtain ⟨-, htaken, hbad, huntaken⟩ := jeqJumpsWhenEqual
  cases hE : s.fl.getLsbD 0 with
  | true => exact failsForCause_of_index (List.mem_singleton_self a) (hbad a s hE) fun r =>
      failsForCause_of_kept (htaken r s hE) rfl
  | false => exact failsForCause_of_completesOrOverruns (huntaken a s hE) (fun _ hs => hs ▸ rfl)

theorem failsForCause_jne (a : Byte) (s : State) : FailsForCause (.jne a) s := by
  obtain ⟨-, htaken, hbad, huntaken⟩ := jneJumpsWhenNotEqual
  cases hE : s.fl.getLsbD 0 with
  | false => exact failsForCause_of_index (List.mem_singleton_self a) (hbad a s hE) fun r =>
      failsForCause_of_kept (htaken r s hE) rfl
  | true => exact failsForCause_of_completesOrOverruns (huntaken a s hE) (fun _ hs => hs ▸ rfl)

/-! ### Every instruction -/

theorem exec_failsForCause (i : Instr) (s : State) : FailsForCause i s := by
  cases i with
  | hlt => obtain ⟨-, hexec⟩ := hltHalts; exact failsForCause_of_kept (hexec s) rfl
  | ldi a b => exact failsForCause_ldi a b s
  | prn a => exact failsForCause_prn a s
  | add a b => exact failsForCause_of_twoRegisterAlu (fun _ _ => rfl) addIsSumModulo256 (fun _ _ => rfl)
  | mul a b => exact failsForCause_of_twoRegisterAlu (fun _ _ => rfl) mulIsProductModulo256 (fun _ _ => rfl)
  | sub a b => exact failsForCause_of_twoRegisterAlu (fun _ _ => rfl) subIsDifferenceModulo256 (fun _ _ => rfl)
  | and a b => exact failsForCause_of_twoRegisterAlu (fun _ _ => rfl) andIsBitwise (fun _ _ => rfl)
  | or a b => exact failsForCause_of_twoRegisterAlu (fun _ _ => rfl) orIsBitwise (fun _ _ => rfl)
  | xor a b => exact failsForCause_of_twoRegisterAlu (fun _ _ => rfl) xorIsBitwise (fun _ _ => rfl)
  | cmp a b => exact failsForCause_cmp a b s
  | div a b => exact failsForCause_div a b s
  | not a => exact failsForCause_not a s
  | push a => exact failsForCause_push a s
  | pop a => exact failsForCause_pop a s
  | call a => exact failsForCause_call a s
  | ret => exact failsForCause_ret s
  | jmp a => exact failsForCause_jmp a s
  | jeq a => exact failsForCause_jeq a s
  | jne a => exact failsForCause_jne a s

/-- An error after an instruction that began without one has a cause. -/
theorem errorCause_of_exec {i : Instr} {s t : State} {k : ErrKind} (herr : s.err = none) (h : exec i s = .next t)
    (hk : t.err = some k) : ErrorCause i s k t.errinfo := by
  obtain ⟨t', hexec, hcases⟩ := exec_failsForCause i s
  cases h.symm.trans hexec
  rcases hcases with hkept | ⟨k', hk', hcause⟩
  · cases hk.symm.trans (hkept.trans herr)
  · cases hk.symm.trans hk'
    exact hcause

/-- Settles O20: each cause is one clause of the statement. -/
theorem fatalErrorCauses : Obligations.FatalErrorCauses := by
  intro i s t k herr h hk
  have hcause := errorCause_of_exec herr h hk
  generalize t.errinfo = v at hcause ⊢
  cases hcause with
  | badIndex hr hbad => exact .inl ⟨_, hr, hbad, rfl⟩
  | overrun hi hover =>
    obtain ⟨hhlt, hret, htarget⟩ := hi
    exact .inr ⟨hhlt, hret, htarget, hover, rfl⟩
  | noRoom hi hsp => exact ⟨hi, hsp, rfl⟩
  | nothingToPop hi hsp => exact ⟨rfl, .inl ⟨hi, hsp⟩⟩
  | poppedTop hi hbyte => exact ⟨rfl, .inr ⟨hi, hbyte⟩⟩
  | zeroDivisor hi hzero => exact ⟨_, _, hi, hzero, rfl⟩

end Sys2Proof.Machine
end
